-- ==== Sys2Proof/Word.lean ====
section
/-! DEFINITION. The data word of the machine: an unsigned byte (00_scope.md rules R7, R8, R10). -/

namespace Sys2Proof

/-- A register value, a memory cell, an opcode or an operand: 8 bits, unsigned (rule R7, `XLEN`). -/
abbrev Byte := BitVec 8

/-- `trunc8(v)` is `v mod 256` (rule R10). -/
def trunc8 (v : Nat) : Byte := BitVec.ofNat 8 v

end Sys2Proof
end

