-- ==== Sys2Proof/Config.lean ====
section
/-! DEFINITION. The named parameters of the spec (00_scope.md rule R7; 92_eei_decisions.md D1, D5, D26): their types and
the one value the spec leaves open. The defaults the machine runs with stand beside the definitions that use them
(`opcodeMap` in Decode.lean, `shiftAmountSource` in Machine/Operands.lean). -/

namespace Sys2Proof

/-- The 14 names of the catalog (30_encoding.md rule R79), the keys of `OPCODE_MAP`. -/
inductive Mnemonic where
  | halt | ldi | prn | jmp | jeq | jne | cmp | and | or | not | shl | shr | mod | xor
  deriving DecidableEq, Repr

namespace Config

/-- `OPCODE_MAP`: the opcode byte of each mnemonic (rule R79, decision D1). -/
abbrev OpcodeMap := Mnemonic → Byte

/-- `SHIFT_AMOUNT_SOURCE` (decision D5): where SHL and SHR take their count from. -/
inductive ShiftAmountSource where
  | register   -- the count is `x[rb]` (the spec's default, 30_encoding.md rule R77)
  | immediate  -- the count is the operand byte itself, which is then not index-checked
  deriving DecidableEq, Repr

/-- `EXIT_CODES` (decision D26, OPEN): which non-zero process exit status the host gives a fault of the numbered
cause. The spec fixes no number, so this constant has no body; the status is one more than it, since 0 is reserved
for HALTED (60_exceptions.md rule R237). Log entry 6. -/
opaque exitCodeBelow (cause : Nat) : Nat

end Config

end Sys2Proof
end

