-- ==== Sys2Proof/Syntax.lean ====
section
/-! DEFINITION. The instructions, one constructor per row of spec/opcode_table.json. -/

namespace Sys2Proof

/-- An instruction with its operand bytes, whole and unmasked (30_encoding.md rules R75, R76): `r`, `ra` and `rb` are
register index bytes, of which 8 to 255 are legal to encode and fault when executed, and `imm` is an immediate. -/
inductive Instr where
  | halt
  | ldi (r imm : Byte)
  | prn (r : Byte)
  | jmp (r : Byte)
  | jeq (r : Byte)
  | jne (r : Byte)
  | cmp (ra rb : Byte)
  | and (ra rb : Byte)
  | or (ra rb : Byte)
  | not (r : Byte)
  | shl (ra rb : Byte)
  | shr (ra rb : Byte)
  | mod (ra rb : Byte)
  | xor (ra rb : Byte)
  deriving DecidableEq, Repr

end Sys2Proof
end

