-- ==== Sys2Proof/WellFormed.lean ====
section
/-! DEFINITION. Which instructions name only registers that exist. -/

namespace Sys2Proof

/-- The operand bytes that are register indices, in operand order (the `regslots` column of
40_fetch_decode_execute.md rule R104). LDI's second byte is an immediate and is not among them. -/
def Instr.regOperands : Instr → List Byte
  | .halt => []
  | .ldi r _ => [r]
  | .prn r => [r]
  | .jmp r => [r]
  | .jeq r => [r]
  | .jne r => [r]
  | .cmp ra rb => [ra, rb]
  | .and ra rb => [ra, rb]
  | .or ra rb => [ra, rb]
  | .not r => [r]
  | .shl ra rb => [ra, rb]
  | .shr ra rb => [ra, rb]
  | .mod ra rb => [ra, rb]
  | .xor ra rb => [ra, rb]

/-- Every register operand names one of R0 to R7 (30_encoding.md rules R76, R84). DEDUCED: the spec calls no
instruction ill-formed. An index of 8 to 255 still decodes, and executing it faults, as the spec says (log entry 14). -/
def Instr.wellFormed (i : Instr) : Bool := i.regOperands.all (fun b => b.toNat ≤ 7)

end Sys2Proof
end

