-- ==== Sys2Proof/Decode.lean ====
section
/-! DEFINITION. The `instruction_decoder` (40_fetch_decode_execute.md rules R103, R104, R114) and the encoder, both over
`OPCODE_MAP` (30_encoding.md rule R79). -/

namespace Sys2Proof

open Config (OpcodeMap)

/-! ### The opcode map -/

/-- The opcode map the machine runs with (rule R79). HALT, LDI and PRN are the source's; the other eleven are the
spec's decision D1, taken from general knowledge of LS-8 (log entry 3). -/
def opcodeMap : OpcodeMap
  | .halt => 0x01
  | .ldi => 0x82
  | .prn => 0x47
  | .jmp => 0x54
  | .jeq => 0x55
  | .jne => 0x56
  | .cmp => 0xA7
  | .and => 0xA8
  | .or => 0xAA
  | .not => 0x69
  | .shl => 0xAC
  | .shr => 0xAD
  | .mod => 0xA4
  | .xor => 0xAB

/-- The catalog, in the order of rule R79. -/
def Mnemonic.all : List Mnemonic :=
  [.halt, .ldi, .prn, .jmp, .jeq, .jne, .cmp, .and, .or, .not, .shl, .shr, .mod, .xor]

/-- How many operand bytes the handler of each mnemonic takes (the `n` column of rules R79 and R104). -/
def Mnemonic.operandCount : Mnemonic → Nat
  | .halt => 0
  | .prn | .jmp | .jeq | .jne | .not => 1
  | .ldi | .cmp | .and | .or | .shl | .shr | .mod | .xor => 2

/-- The operand count as a field of the opcode byte, `op[7:6]` (rule R71). -/
def operandCount (op : Byte) : Nat := (op.extractLsb' 6 2).toNat

/-- The legal values of `OPCODE_MAP` (rule R79): injective, the source's three bytes kept, and each byte's `op[7:6]`
the operand count of its mnemonic. -/
def LegalOpcodeMap (map : OpcodeMap) : Prop :=
  (∀ m m', map m = map m' → m = m') ∧
  map .halt = 0x01 ∧ map .ldi = 0x82 ∧ map .prn = 0x47 ∧
  ∀ m, operandCount (map m) = m.operandCount

/-! ### Control words -/

/-- The four formats of 30_encoding.md rule R75. -/
inductive Format where
  | f0 | f1r | f2ri | f2rr
  deriving DecidableEq, Repr

/-- The `class` column of rule R104. -/
inductive InstrClass where
  | halt | ldi | out | jump | cmp | alu
  deriving DecidableEq, Repr

/-- The operations of `alu_handlers` (44_alu.md rule R180). -/
inductive AluOp where
  | and | or | xor | not | shl | shr | mod
  deriving DecidableEq, Repr

/-- The `jcond` column of rule R104; `never` is the spec's NONE. -/
inductive JumpCond where
  | never | always | eq | ne
  deriving DecidableEq, Repr

/-- The control word of rule R104. `regslots` lists the operand bytes (1 or 2) that are register indices, in ascending
order; where `regWe` is set the destination is operand byte 1. -/
structure ControlWord where
  n : Nat
  format : Format
  cls : InstrClass
  aluOp : Option AluOp := none
  jcond : JumpCond := .never
  regslots : List Nat := []
  regWe : Bool := false
  flagsWe : Bool := false
  outEn : Bool := false
  halt : Bool := false
  deriving DecidableEq, Repr

/-- The rows of rule R104, one per catalog opcode. -/
def Mnemonic.controlWord : Mnemonic → ControlWord
  | .halt => { n := 0, format := .f0, cls := .halt, halt := true }
  | .ldi => { n := 2, format := .f2ri, cls := .ldi, regslots := [1], regWe := true }
  | .prn => { n := 1, format := .f1r, cls := .out, regslots := [1], outEn := true }
  | .jmp => { n := 1, format := .f1r, cls := .jump, jcond := .always, regslots := [1] }
  | .jeq => { n := 1, format := .f1r, cls := .jump, jcond := .eq, regslots := [1] }
  | .jne => { n := 1, format := .f1r, cls := .jump, jcond := .ne, regslots := [1] }
  | .cmp => { n := 2, format := .f2rr, cls := .cmp, regslots := [1, 2], flagsWe := true }
  | .and => { n := 2, format := .f2rr, cls := .alu, aluOp := some .and, regslots := [1, 2], regWe := true }
  | .or => { n := 2, format := .f2rr, cls := .alu, aluOp := some .or, regslots := [1, 2], regWe := true }
  | .not => { n := 1, format := .f1r, cls := .alu, aluOp := some .not, regslots := [1], regWe := true }
  | .shl => { n := 2, format := .f2rr, cls := .alu, aluOp := some .shl, regslots := [1, 2], regWe := true }
  | .shr => { n := 2, format := .f2rr, cls := .alu, aluOp := some .shr, regslots := [1, 2], regWe := true }
  | .mod => { n := 2, format := .f2rr, cls := .alu, aluOp := some .mod, regslots := [1, 2], regWe := true }
  | .xor => { n := 2, format := .f2rr, cls := .alu, aluOp := some .xor, regslots := [1, 2], regWe := true }

/-! ### Decoding -/

/-- The 256-entry table indexed by the full opcode byte (rule R103): the mnemonic whose byte it is, or `none` for
UNKNOWN (30_encoding.md rule R80). -/
def decodeOpcodeWith (map : OpcodeMap) (op : Byte) : Option Mnemonic :=
  Mnemonic.all.find? (fun m => decide (map m = op))

/-- `decodeOpcodeWith` under the default map. -/
def decodeOpcode (op : Byte) : Option Mnemonic := decodeOpcodeWith opcodeMap op

/-- The output of block `instruction_decoder` (rule R114): `none` is `valid = 0`. -/
def instructionDecoder (op : Byte) : Option ControlWord := (decodeOpcode op).map Mnemonic.controlWord

/-- The decoded view of an instruction (30_encoding.md rules R70, R75): its operation and its operand bytes. A byte the
format does not have is ignored. -/
def Mnemonic.assemble : Mnemonic → Byte → Byte → Instr
  | .halt, _, _ => .halt
  | .ldi, b1, b2 => .ldi b1 b2
  | .prn, b1, _ => .prn b1
  | .jmp, b1, _ => .jmp b1
  | .jeq, b1, _ => .jeq b1
  | .jne, b1, _ => .jne b1
  | .cmp, b1, b2 => .cmp b1 b2
  | .and, b1, b2 => .and b1 b2
  | .or, b1, b2 => .or b1 b2
  | .not, b1, _ => .not b1
  | .shl, b1, b2 => .shl b1 b2
  | .shr, b1, b2 => .shr b1 b2
  | .mod, b1, b2 => .mod b1 b2
  | .xor, b1, b2 => .xor b1 b2

/-- Why a list of bytes holds no instruction. -/
inductive DecodeError where
  /-- There is no opcode byte. -/
  | noOpcode
  /-- The opcode byte is not in the catalog (rule R80). -/
  | unknownOpcode (op : Byte)
  /-- The list ends before operand byte `k` of the instruction that `op` begins. -/
  | missingOperand (op : Byte) (k : Nat)
  deriving DecidableEq, Repr

/-- Decodes the instruction at the front of a list of bytes and gives what follows it. The operand count is `op[7:6]`
(rule R71) and the operation is chosen by the whole byte (rule R103). -/
def decodeWith (map : OpcodeMap) : List Byte → Except DecodeError (Instr × List Byte)
  | [] => .error .noOpcode
  | op :: rest =>
    match decodeOpcodeWith map op with
    | none => .error (.unknownOpcode op)
    | some m =>
      if operandCount op = 0 then .ok (m.assemble 0 0, rest)
      else
        match rest with
        | [] => .error (.missingOperand op 1)
        | b1 :: rest1 =>
          if operandCount op = 1 then .ok (m.assemble b1 0, rest1)
          else
            match rest1 with
            | [] => .error (.missingOperand op 2)
            | b2 :: rest2 => .ok (m.assemble b1 b2, rest2)

/-- `decodeWith` under the default map. -/
def decode (bytes : List Byte) : Except DecodeError (Instr × List Byte) := decodeWith opcodeMap bytes

/-! ### Encoding -/

/-- The catalog name of an instruction. -/
def Instr.mnemonic : Instr → Mnemonic
  | .halt => .halt
  | .ldi _ _ => .ldi
  | .prn _ => .prn
  | .jmp _ => .jmp
  | .jeq _ => .jeq
  | .jne _ => .jne
  | .cmp _ _ => .cmp
  | .and _ _ => .and
  | .or _ _ => .or
  | .not _ => .not
  | .shl _ _ => .shl
  | .shr _ _ => .shr
  | .mod _ _ => .mod
  | .xor _ _ => .xor

/-- The operand bytes in encoded order (rule R75). -/
def Instr.operands : Instr → List Byte
  | .halt => []
  | .ldi r imm => [r, imm]
  | .prn r => [r]
  | .jmp r => [r]
  | .jeq r => [r]
  | .jne r => [r]
  | .cmp ra rb => [ra, rb]
  | .and ra rb => [ra, rb]
  | .or ra rb => [ra, rb]
  | .not r => [r]
  | .shl ra rb => [ra, rb]
  | .shr ra rb => [ra, rb]
  | .mod ra rb => [ra, rb]
  | .xor ra rb => [ra, rb]

/-- The bytes of an instruction at increasing addresses: the opcode, then the operands (rules R70, R75). -/
def Instr.encodeWith (map : OpcodeMap) (i : Instr) : List Byte := map i.mnemonic :: i.operands

/-- `Instr.encodeWith` under the default map. -/
def Instr.encode (i : Instr) : List Byte := i.encodeWith opcodeMap

/-- The length of an instruction in bytes, 1 + its operand count (00_scope.md rule R13, "width"). -/
def Instr.width (i : Instr) : Nat := 1 + i.mnemonic.operandCount

/-! ### The numbering of spec/opcode_table.json -/

/-- The three bytes of a table word: bits 7..0 are the first byte, 15..8 the second, 23..16 the third, and every bit
from `nbits` up is 0. Three bytes are the longest instruction (rule R70). -/
def tableBytes (nbits w : Nat) : List Byte :=
  [trunc8 (w % 2 ^ nbits), trunc8 (w % 2 ^ nbits / 256), trunc8 (w % 2 ^ nbits / 65536)]

/-- The instruction the decoder reads from a table word. -/
def decodeTableWord (nbits w : Nat) : Option Instr :=
  match decode (tableBytes nbits w) with
  | .ok (i, _) => some i
  | .error _ => none

end Sys2Proof
end

