-- ==== Sys2Proof/Machine/State.lean ====
section
/-! DEFINITION. The machine state, plain data (40_fetch_decode_execute.md rule R100; 10_state.md), and the reasons a step
can stop. -/

namespace Sys2Proof.Machine

/-- The three independent flag bits (10_state.md rule R34): equal, greater, less. -/
structure Flags where
  e : Bool
  g : Bool
  l : Bool
  deriving DecidableEq, Repr

/-- The run status (10_state.md rule R43). -/
inductive Status where
  | running | halted | faulted
  deriving DecidableEq, Repr

/-- The fault cause (10_state.md rule R43). -/
inductive Cause where
  | none | unknownOpcode | outOfRange | divideByZero
  deriving DecidableEq, Repr

/-- What was out of range (10_state.md rule R43, `fault_kind`). -/
inductive FaultKind where
  | address | register
  deriving DecidableEq, Repr

/-- Memory as a list of (address, byte) pairs: addresses strictly rising, all below 256, no byte equal to what an
unlisted address reads as (`Memory.wf`). -/
abbrev Memory := List Host.Cell

/-- The machine state of rule R100. -/
structure State where
  /-- R0 to R7 (10_state.md rule R20). -/
  regs : Vector Byte 8
  /-- The program counter, 0 to 256, a natural that never wraps (10_state.md rules R26, R27, R31). -/
  pc : Nat
  /-- E, G and L (10_state.md rule R34). -/
  flags : Flags
  /-- The 256 cells (10_state.md rule R39). -/
  mem : Memory
  /-- The values emitted so far, oldest first (10_state.md rule R42). -/
  out : List Byte
  /-- The run status and the fault record (10_state.md rule R43). -/
  status : Status
  cause : Cause
  faultPc : Nat
  /-- `none` is the spec's own value "none". -/
  faultKind : Option FaultKind
  faultValue : Nat
  deriving DecidableEq, Repr

/-- Why a step gives no next state. A fault of the core is NOT one of these: the spec describes the state it leads to
(60_exceptions.md rule R225), so it is a next state with status FAULTED. -/
inductive Fault where
  /-- Raised by `step` alone, where status is not RUNNING: HALTED and FAULTED are final and no step is enabled in them
  (40_fetch_decode_execute.md rule R100, 60_exceptions.md rule R227). Safe: nothing is said of a step the hardware does
  not take. -/
  | stepNotEnabled
  deriving DecidableEq, Repr

/-- What the model has no meaning for. -/
inductive Refusal where
  /-- Raised by an arm of `exec` that has no meaning yet. Safe. No arm raises it: every instruction has its meaning. -/
  | notModelled (mnemonic : String)
  /-- Raised by `load` alone, for an image of more than 256 values or with a value above 255
  (70_reset_and_hazards.md rule R262, decision D20). Safe: the host refuses such an image before the first step. -/
  | illegalLoadImage
  deriving DecidableEq, Repr

/-- The machine right after reset (10_state.md rule R46, 70_reset_and_hazards.md rule R260). Every value is the spec's. -/
def State.reset : State where
  regs := Vector.replicate 8 0
  pc := 0
  flags := { e := false, g := false, l := false }
  mem := []
  out := []
  status := .running
  cause := .none
  faultPc := 0
  faultKind := none
  faultValue := 0

end Sys2Proof.Machine
end

