-- ==== Sys2Proof/Machine/Ops.lean ====
section
/-! DEFINITION. The named operations over memory and registers, fault entry, and the commit of a step's effect. There is
no return from a fault to stand beside fault entry: FAULTED is final (60_exceptions.md rule R227). -/

namespace Sys2Proof.Machine

/-! ### Faults of the core -/

/-- The faults the core raises (60_exceptions.md rules R220 to R223), with the information they carry. -/
inductive CoreFault where
  | unknownOpcode (op : Byte)
  | outOfRangeAddress (addr : Nat)
  | outOfRangeRegister (index : Byte)
  | divideByZero
  deriving DecidableEq, Repr

/-- The cause a fault records (rules R221 to R223). -/
def CoreFault.cause : CoreFault → Cause
  | .unknownOpcode _ => .unknownOpcode
  | .outOfRangeAddress _ => .outOfRange
  | .outOfRangeRegister _ => .outOfRange
  | .divideByZero => .divideByZero

/-- The `fault_kind` a fault records (10_state.md rule R43). -/
def CoreFault.kind : CoreFault → Option FaultKind
  | .outOfRangeAddress _ => some .address
  | .outOfRangeRegister _ => some .register
  | .unknownOpcode _ => none
  | .divideByZero => none

/-- The `fault_value` a fault records (rules R221 to R223; 0 for DivideByZero). -/
def CoreFault.value : CoreFault → Nat
  | .unknownOpcode op => op.toNat
  | .outOfRangeAddress addr => addr
  | .outOfRangeRegister index => index.toNat
  | .divideByZero => 0

/-- Fault entry (60_exceptions.md rules R224, R225): the status fields are set, nothing else changes and the run is
over. `pc` still holds the address of the faulting fetch or instruction, which `fault_pc` records. -/
def raise (f : CoreFault) (s : State) : State :=
  { s with
    status := .faulted
    cause := f.cause
    faultPc := s.pc
    faultKind := f.kind
    faultValue := f.value }

/-! ### Memory -/

/-- What an address that is not listed reads as: memory is zero-initialised (10_state.md rule R39). -/
def Memory.unlisted : Byte := 0

/-- The canonical form of memory: addresses strictly rising and below 256 (20_memory.md rule R50), no entry equal to
what an unlisted address reads as. Equal memories are then equal lists. -/
def Memory.wf : Memory → Bool
  | [] => true
  | (a, v) :: rest =>
    decide (a < 256) && decide (v ≠ Memory.unlisted) && rest.all (fun c => decide (a < c.1)) && Memory.wf rest

/-- The byte at an address, with no bounds check. -/
def Memory.get : Memory → Nat → Byte
  | [], _ => Memory.unlisted
  | (b, v) :: rest, a => if b = a then v else Memory.get rest a

/-- Memory with one byte replaced, in canonical form, with no bounds check. -/
def Memory.set : Memory → Nat → Byte → Memory
  | [], a, v => if v = Memory.unlisted then [] else [(a, v)]
  | (b, w) :: rest, a, v =>
    if a < b then (if v = Memory.unlisted then (b, w) :: rest else (a, v) :: (b, w) :: rest)
    else if a = b then (if v = Memory.unlisted then rest else (a, v) :: rest)
    else (b, w) :: Memory.set rest a v

/-- The read port: `MemRead(addr, 1)` (00_scope.md rule R9; 20_memory.md rules R51, R59). -/
def memRead (m : Memory) (addr : Nat) : Except CoreFault Byte :=
  if addr > 255 then .error (.outOfRangeAddress addr) else .ok (Memory.get m addr)

/-- The write port: `MemWrite(addr, 1, v)` (00_scope.md rule R9; 20_memory.md rules R51, R52, R55). Only the Loader
uses it. -/
def memWrite (m : Memory) (addr : Nat) (v : Byte) : Except CoreFault Memory :=
  if addr > 255 then .error (.outOfRangeAddress addr) else .ok (Memory.set m addr v)

/-! ### Registers -/

/-- The check of a register index byte (10_state.md rule R21; 40_fetch_decode_execute.md rule R106): the whole byte, not
masked. -/
def checkIndex (b : Byte) : Except CoreFault (Fin 8) :=
  if h : b.toNat < 8 then .ok ⟨b.toNat, h⟩ else .error (.outOfRangeRegister b)

/-- `x[i]` (00_scope.md rule R9). -/
def getReg (s : State) (i : Fin 8) : Byte := s.regs[i.val]

/-- `x[i] <- v` (00_scope.md rule R9). -/
def setReg (s : State) (i : Fin 8) (v : Byte) : State := { s with regs := s.regs.set i.val v }

/-- A read port of `register_file` (40_fetch_decode_execute.md rule R115): the register's value before the commit, or
OutOfRange where the index is outside 0 to 7. -/
def regReadPort (s : State) (idx : Byte) : Except CoreFault Byte :=
  match checkIndex idx with
  | .error f => .error f
  | .ok i => .ok (getReg s i)

/-- The write port of `register_file` (rule R115): the write it hands to the commit, where it takes effect, or OutOfRange
where the index is outside 0 to 7; no write where `we` is not asserted. -/
def regWritePort (we : Bool) (idx data : Byte) : Except CoreFault (Option (Fin 8 × Byte)) :=
  if we then
    match checkIndex idx with
    | .error f => .error f
    | .ok i => .ok (some (i, data))
  else .ok none

/-! ### The program counter and the jump multiplexer -/

/-- The sequential next pc, `p + 1 + n`, on unbounded naturals (10_state.md rules R29, R31). -/
def seqPc (s : State) (n : Nat) : Nat := s.pc + 1 + n

/-- Whether the jump condition holds (42_jumps.md rule R150). -/
def takesJump (c : JumpCond) (e : Bool) : Bool :=
  match c with
  | .never => false
  | .always => true
  | .eq => e
  | .ne => !e

/-- Block `conditional_jump_mux` (42_jumps.md rule R150): the next pc of a non-halting step, from the flag E as it stood
before the step. -/
def jumpMux (c : JumpCond) (s : State) (target : Byte) (n : Nat) : Nat :=
  if takesJump c s.flags.e then target.toNat else seqPc s n

/-! ### The effect of a handler and its commit -/

/-- What a handler computes without writing state (40_fetch_decode_execute.md rule R107). `pcNext` counts only where
`halt` is not set. -/
structure Effect where
  regWrite : Option (Fin 8 × Byte) := none
  flagsWrite : Option Flags := none
  out : Option Byte := none
  halt : Bool := false
  pcNext : Nat
  deriving DecidableEq, Repr

/-- Commit (rules R101 step 6, R108): all writes together; either the pc is written or the run is halted. -/
def commit (eff : Effect) (s : State) : State :=
  { s with
    regs := match eff.regWrite with
      | some (i, v) => s.regs.set i.val v
      | none => s.regs
    flags := match eff.flagsWrite with
      | some f => f
      | none => s.flags
    out := match eff.out with
      | some v => s.out ++ [v]
      | none => s.out
    status := if eff.halt then .halted else s.status
    pc := if eff.halt then s.pc else eff.pcNext }

/-- The end of a step: commit what the handler computed, or take the fault it raised (rules R101, R225). -/
def complete (s : State) : Except CoreFault Effect → Host.Outcome State Fault Refusal
  | .ok eff => .next (commit eff s)
  | .error f => .next (raise f s)

end Sys2Proof.Machine
end

