-- ==== Sys2Proof/Machine/Operands.lean ====
section
/-! DEFINITION. The operand forms (30_encoding.md rules R75 to R77): the register-index checks of
40_fetch_decode_execute.md rule R106 in operand order, and then the handler. -/

namespace Sys2Proof.Machine

open Config (ShiftAmountSource)

/-- Formats F1R and F2RI: one register index, checked, then the handler. -/
def withReg (r : Byte) (s : State) (handler : Fin 8 → Except CoreFault Effect) :
    Host.Outcome State Fault Refusal :=
  match checkIndex r with
  | .error f => complete s (.error f)
  | .ok i => complete s (handler i)

/-- Format F2RR: two register indices, checked in operand order, then the handler. -/
def withRegs (ra rb : Byte) (s : State) (handler : Fin 8 → Fin 8 → Except CoreFault Effect) :
    Host.Outcome State Fault Refusal :=
  match checkIndex ra with
  | .error f => complete s (.error f)
  | .ok i =>
    match checkIndex rb with
    | .error f => complete s (.error f)
    | .ok j => complete s (handler i j)

/-- The `SHIFT_AMOUNT_SOURCE` the machine runs with (30_encoding.md rule R77, decision D5; log entry 4). -/
def shiftAmountSource : ShiftAmountSource := .register

/-- The two operands of a shift under either value of `SHIFT_AMOUNT_SOURCE` (decision D5): with `register` both bytes
are checked indices and the count is `x[rb]`; with `immediate` the count is the second byte itself, not checked. -/
def withShiftAmount (src : ShiftAmountSource) (ra rb : Byte) (s : State)
    (handler : Fin 8 → Byte → Except CoreFault Effect) : Host.Outcome State Fault Refusal :=
  match src with
  | .register => withRegs ra rb s (fun i j => handler i (getReg s j))
  | .immediate => withReg ra s (fun i => handler i rb)

end Sys2Proof.Machine
end

