-- ==== Sys2Proof/Machine/Alu.lean ====
section
/-! DEFINITION. Block `alu_handlers` and its seven instructions (44_alu.md). -/

namespace Sys2Proof.Machine

open Config (ShiftAmountSource)

/-- The output `div0` of `alu_handlers` (rule R180). -/
def aluDiv0 (op : AluOp) (b : Byte) : Bool := decide (op = .mod) && decide (b = 0)

/-- The output `result` of `alu_handlers` (rule R180), computed on naturals and truncated to 8 bits (rule R181). For MOD
it counts only where `div0` is 0. -/
def aluResult (op : AluOp) (a b : Byte) : Byte :=
  match op with
  | .and => a &&& b
  | .or => a ||| b
  | .xor => a ^^^ b
  | .not => trunc8 (255 - a.toNat)
  | .shl => trunc8 (a.toNat * 2 ^ b.toNat)
  | .shr => trunc8 (a.toNat / 2 ^ b.toNat)
  | .mod => trunc8 (a.toNat % b.toNat)

/-- The handler of class ALU (rule R180): DivideByZero where `div0` is 1 and then nothing is committed, else the result
goes to the first operand's register. No flag is read or written (rule R182). -/
def aluEffect (op : AluOp) (i : Fin 8) (a b : Byte) (pcNext : Nat) : Except CoreFault Effect :=
  if aluDiv0 op b then .error .divideByZero
  else .ok { regWrite := some (i, aluResult op a b), pcNext := pcNext }

/-- An ALU instruction of format F2RR: `x[ra] <- x[ra] op x[rb]`, advance by 3. -/
def aluInstr (op : AluOp) (ra rb : Byte) (s : State) : Host.Outcome State Fault Refusal :=
  withRegs ra rb s (fun i j => aluEffect op i (getReg s i) (getReg s j) (seqPc s 2))

/-- A shift under either value of `SHIFT_AMOUNT_SOURCE` (decision D5): `x[ra] <- x[ra] op k`, advance by 3. -/
def shiftInstr (src : ShiftAmountSource) (op : AluOp) (ra rb : Byte) (s : State) :
    Host.Outcome State Fault Refusal :=
  withShiftAmount src ra rb s (fun i k => aluEffect op i (getReg s i) k (seqPc s 2))

/-- AND ra, rb (rule R183). -/
def execAnd (ra rb : Byte) (s : State) : Host.Outcome State Fault Refusal := aluInstr .and ra rb s

/-- OR ra, rb (rule R184). -/
def execOr (ra rb : Byte) (s : State) : Host.Outcome State Fault Refusal := aluInstr .or ra rb s

/-- NOT r (rule R185): `x[r] <- 255 - x[r]`, advance by 2. Input `b` is unused. -/
def execNot (r : Byte) (s : State) : Host.Outcome State Fault Refusal :=
  withReg r s (fun i => aluEffect .not i (getReg s i) 0 (seqPc s 1))

/-- SHL ra, rb (rule R186): shifts in zeros; the count is not masked, so 8 or more gives 0. -/
def execShl (ra rb : Byte) (s : State) : Host.Outcome State Fault Refusal :=
  shiftInstr shiftAmountSource .shl ra rb s

/-- SHR ra, rb (rule R187): logical, never copying bit 7; the count is not masked. -/
def execShr (ra rb : Byte) (s : State) : Host.Outcome State Fault Refusal :=
  shiftInstr shiftAmountSource .shr ra rb s

/-- MOD ra, rb (rule R188): DivideByZero where `x[rb] = 0`, after the index checks. -/
def execMod (ra rb : Byte) (s : State) : Host.Outcome State Fault Refusal := aluInstr .mod ra rb s

/-- XOR ra, rb (rule R189). -/
def execXor (ra rb : Byte) (s : State) : Host.Outcome State Fault Refusal := aluInstr .xor ra rb s

end Sys2Proof.Machine
end

