-- ==== Sys2Proof/Machine/Flags.lean ====
section
/-! DEFINITION. The comparator, the only source of flag values (43_compare.md rules R170, R172; 10_state.md rule R35). -/

namespace Sys2Proof.Machine

/-- The flags CMP writes, all three every time, from an unsigned comparison (43_compare.md rule R170). -/
def compareFlags (a b : Byte) : Flags where
  e := decide (a = b)
  g := decide (a.toNat > b.toNat)
  l := decide (a.toNat < b.toNat)

end Sys2Proof.Machine
end

