-- ==== Sys2Proof/Machine/Compare.lean ====
section
/-! DEFINITION. CMP (43_compare.md). -/

namespace Sys2Proof.Machine

/-- CMP ra, rb (rule R170): E, G and L from `x[ra]` and `x[rb]`, advance by 3. No register changes. -/
def execCmp (ra rb : Byte) (s : State) : Host.Outcome State Fault Refusal :=
  withRegs ra rb s (fun i j =>
    .ok { flagsWrite := some (compareFlags (getReg s i) (getReg s j)), pcNext := seqPc s 2 })

end Sys2Proof.Machine
end

