-- ==== Sys2Proof/Machine/HaltLoadPrint.lean ====
section
/-! DEFINITION. HALT, LDI and PRN (41_halt_load_print.md). -/

namespace Sys2Proof.Machine

/-- HALT (rule R130): status becomes HALTED and the pc keeps the HALT's address. -/
def execHalt (s : State) : Host.Outcome State Fault Refusal :=
  complete s (.ok { halt := true, pcNext := s.pc })

/-- LDI r, imm (rule R132): `x[r] <- imm`, advance by 3. The immediate is never checked. -/
def execLdi (r imm : Byte) (s : State) : Host.Outcome State Fault Refusal :=
  withReg r s (fun i => .ok { regWrite := some (i, imm), pcNext := seqPc s 2 })

/-- PRN r (rule R134): emit `x[r]`, advance by 2. -/
def execPrn (r : Byte) (s : State) : Host.Outcome State Fault Refusal :=
  withReg r s (fun i => .ok { out := some (getReg s i), pcNext := seqPc s 1 })

end Sys2Proof.Machine
end

