-- ==== Sys2Proof/Machine/Jumps.lean ====
section
/-! DEFINITION. JMP, JEQ and JNE (42_jumps.md). -/

namespace Sys2Proof.Machine

/-- Class JUMP (40_fetch_decode_execute.md rule R104): the index is checked whether or not the jump is taken (rule R106),
and the next pc is the multiplexer's. -/
def jumpInstr (c : JumpCond) (r : Byte) (s : State) : Host.Outcome State Fault Refusal :=
  withReg r s (fun i => .ok { pcNext := jumpMux c s (getReg s i) 1 })

/-- JMP r (rule R151): `pc <- x[r]`. -/
def execJmp (r : Byte) (s : State) : Host.Outcome State Fault Refusal := jumpInstr .always r s

/-- JEQ r (rule R152): `pc <- x[r]` where E = 1, else advance by 2. -/
def execJeq (r : Byte) (s : State) : Host.Outcome State Fault Refusal := jumpInstr .eq r s

/-- JNE r (rule R153): `pc <- x[r]` where E = 0, else advance by 2. G and L are never consulted. -/
def execJne (r : Byte) (s : State) : Host.Outcome State Fault Refusal := jumpInstr .ne r s

end Sys2Proof.Machine
end

