-- ==== Sys2Proof/Machine/Fetch.lean ====
section
/-! DEFINITION. Fetch, decode and operand fetch: steps 1 to 3 of 40_fetch_decode_execute.md rule R101. -/

namespace Sys2Proof.Machine

open Config (OpcodeMap)

/-- Operand byte `k` of the instruction at the pc, where it has one (rule R105); 0 for a byte the format does not
have, which `Mnemonic.assemble` ignores. -/
def fetchOperand (s : State) (n k : Nat) : Except CoreFault Byte :=
  if k ≤ n then memRead s.mem (s.pc + k) else .ok 0

/-- Fetches and decodes the instruction at the pc (rules R101 to R103, R105). The checks come in the order of
60_exceptions.md rule R226: fetch bound, unknown opcode, first operand's bound, second operand's bound. -/
def fetchWith (map : OpcodeMap) (s : State) : Except CoreFault Instr :=
  match memRead s.mem s.pc with
  | .error f => .error f
  | .ok op =>
    match decodeOpcodeWith map op with
    | none => .error (.unknownOpcode op)
    | some m =>
      match fetchOperand s (operandCount op) 1 with
      | .error f => .error f
      | .ok b1 =>
        match fetchOperand s (operandCount op) 2 with
        | .error f => .error f
        | .ok b2 => .ok (m.assemble b1 b2)

/-- `fetchWith` under the default opcode map. -/
def fetch (s : State) : Except CoreFault Instr := fetchWith opcodeMap s

/-- The bytes an instruction at the pc can take: up to three, none past address 255 (30_encoding.md rule R70). -/
def fetchWindow (s : State) : List Byte :=
  ((List.range 3).filter (fun k => decide (s.pc + k ≤ 255))).map (fun k => Memory.get s.mem (s.pc + k))

/-- Stores bytes at consecutive addresses, leaving out those past address 255. -/
def placeBytes : Memory → Nat → List Byte → Memory
  | m, _, [] => m
  | m, addr, v :: vs =>
    match memWrite m addr v with
    | .ok m' => placeBytes m' (addr + 1) vs
    | .error _ => m

end Sys2Proof.Machine
end

