-- ==== Sys2Proof/Machine/Step.lean ====
section
/-! DEFINITION. One step of the loop (40_fetch_decode_execute.md rules R100, R101). -/

namespace Sys2Proof.Machine

/-- One step: enabled only while status is RUNNING (rule R100); fetch and decode, or take the fault they raise, then
the instruction's meaning. -/
def step (s : State) : Host.Outcome State Fault Refusal :=
  match s.status with
  | .halted => .fault .stepNotEnabled
  | .faulted => .fault .stepNotEnabled
  | .running =>
    match fetch s with
    | .error f => .next (raise f s)
    | .ok i => exec i s

/-- `s` with a table word's instruction stored at the pc, where the next step fetches, and a step enabled. The bytes
past address 255 have no cell and are left out (log entry 8). -/
def State.withFetchWord (s : State) (nbits w : Nat) : State :=
  { s with mem := placeBytes s.mem s.pc (tableBytes nbits w), status := .running }

end Sys2Proof.Machine
end

