-- ==== Sys2Proof/Machine/Datapath.lean ====
section
/-! DEFINITION. The block diagram: steps 4 to 6 of a step as the control word of 40_fetch_decode_execute.md rule R104 and
the connections of rule R119 give them, for any instruction. `exec` is written from the instruction rules of files 41 to
44 and does not use this. -/

namespace Sys2Proof.Machine

/-- The index check over `regslots`, in the order listed (rule R106). -/
def checkSlots (b1 b2 : Byte) : List Nat → Except CoreFault Unit
  | [] => .ok ()
  | k :: ks =>
    match checkIndex (if k = 1 then b1 else b2) with
    | .error f => .error f
    | .ok _ => checkSlots b1 b2 ks

/-- A read port of `register_file` where the loop drives it (rule R115); a port that is not driven carries 0, which is
used nowhere (log entry 13). -/
def drivenRead (driven : Bool) (s : State) (idx : Byte) : Except CoreFault Byte :=
  if driven then regReadPort s idx else .ok 0

/-- The effect of one step from its control word and operand bytes (rules R104, R107, R119). The first read port is driven
where `b1` is a register index, the second for format F2RR, the write port where `reg_we` is set; each is driven only after
the index check (rules R106, R115) and still reports what it is given. -/
def datapath (cw : ControlWord) (b1 b2 : Byte) (s : State) : Except CoreFault Effect :=
  match checkSlots b1 b2 cw.regslots with
  | .error f => .error f
  | .ok _ =>
    match drivenRead (decide (1 ∈ cw.regslots)) s b1 with
    | .error f => .error f
    | .ok a =>
      match drivenRead (decide (cw.format = .f2rr)) s b2 with
      | .error f => .error f
      | .ok b =>
        let div0 := match cw.aluOp with
          | some op => aluDiv0 op b
          | none => false
        let result := match cw.aluOp with
          | some op => aluResult op a b
          | none => 0
        if div0 then .error .divideByZero
        else
          match regWritePort cw.regWe b1 (if cw.cls = .ldi then b2 else result) with
          | .error f => .error f
          | .ok write => .ok {
              regWrite := write
              flagsWrite := if cw.flagsWe then some (compareFlags a b) else none
              out := if cw.outEn then some a else none
              halt := cw.halt
              pcNext := if cw.halt then s.pc else jumpMux cw.jcond s a cw.n }

/-- The operand bytes of an instruction on the wires `b1` and `b2`, 0 where the format has none. -/
def operandWires (i : Instr) : Byte × Byte :=
  match i.operands with
  | [] => (0, 0)
  | [b1] => (b1, 0)
  | b1 :: b2 :: _ => (b1, b2)

/-- An instruction run through the block diagram. -/
def execByDatapath (i : Instr) (s : State) : Host.Outcome State Fault Refusal :=
  complete s (datapath i.mnemonic.controlWord (operandWires i).1 (operandWires i).2 s)

end Sys2Proof.Machine
end

