-- ==== Sys2Proof/Machine/HostView.lean ====
section
/-! DEFINITION. What the host makes of the state it reads (10_state.md rule R43; 41_halt_load_print.md rules R131, R135;
60_exceptions.md rule R237). No program sees any of it and no step depends on it. -/

namespace Sys2Proof.Machine

/-- The code of `status` (rule R43, decision D12). -/
def Status.code : Status → Nat
  | .running => 0
  | .halted => 1
  | .faulted => 2

/-- The code of `cause` (rule R43, decision D12). -/
def Cause.code : Cause → Nat
  | .none => 0
  | .unknownOpcode => 1
  | .outOfRange => 2
  | .divideByZero => 3

/-- The process exit status (rules R131, R237): 0 for HALTED, non-zero for a fault, by the open parameter `EXIT_CODES`
(decision D26, log entry 6); none while the run has not ended. -/
def exitStatus (s : State) : Option Nat :=
  match s.status with
  | .running => none
  | .halted => some 0
  | .faulted => some (Config.exitCodeBelow s.cause.code + 1)

/-- The lines the host prints, one decimal integer for each value emitted, in execution order (rule R135). -/
def printedLines (s : State) : List String := s.out.map (fun v => toString v.toNat)

end Sys2Proof.Machine
end

