-- ==== Sys2Proof/Machine/Loader.lean ====
section
/-! DEFINITION. The load of a program, the host's one write to the machine (70_reset_and_hazards.md rules R261, R262;
40_fetch_decode_execute.md rule R113, group `load`). -/

namespace Sys2Proof.Machine

/-- Writes the values at consecutive addresses through the bounds-checked write port (rule R261). -/
def writeImage : Memory → Nat → List Nat → Except CoreFault Memory
  | m, _, [] => .ok m
  | m, addr, v :: vs =>
    match memWrite m addr (trunc8 v) with
    | .error f => .error f
    | .ok m' => writeImage m' (addr + 1) vs

/-- The load, after reset and before the first step: image[i] to address i. An image with a value above 255, or that
runs past address 255, is refused and no step runs (rule R262). -/
def load (image : List Nat) (s : State) : Host.Outcome State Fault Refusal :=
  if image.all (fun v => decide (v ≤ 255)) then
    match writeImage s.mem 0 image with
    | .ok m => .next { s with mem := m }
    | .error _ => .refused .illegalLoadImage
  else .refused .illegalLoadImage

/-- The start of a run: reset, then load (rules R260, R261, R263). -/
def boot (image : List Nat) : Host.Outcome State Fault Refusal := load image State.reset

end Sys2Proof.Machine
end

