-- ==== Sys2Proof/Machine/Run.lean ====
section
/-! DEFINITION. The loop under fuel (40_fetch_decode_execute.md rules R100, R111). -/

namespace Sys2Proof.Machine

/-- What a run under fuel comes to. Running out of fuel is "not ended", never HALTED (rule R111, decision D27). -/
inductive RunResult where
  | ended (s : State)
  | notEnded (s : State)
  /-- A step of a RUNNING state gave no next state. The model has no such step. -/
  | stuck
  deriving DecidableEq, Repr

/-- `while s.status = RUNNING: s <- step(s)` for at most `fuel` steps (rule R100). -/
def run : Nat → State → RunResult
  | fuel, s =>
    match s.status with
    | .halted => .ended s
    | .faulted => .ended s
    | .running =>
      match fuel with
      | 0 => .notEnded s
      | k + 1 =>
        match step s with
        | .next t => run k t
        | .fault _ => .stuck
        | .refused _ => .stuck

end Sys2Proof.Machine
end

