-- ==== Sys2Proof/Safety.lean ====
section
/-! DEFINITION. The invariant of the machine and what counts as a safe run. -/

namespace Sys2Proof.Machine

/-- At most one of E, G and L is set: all are 0 before the first CMP, exactly one is 1 after it (43_compare.md rule
R171). -/
abbrev Flags.atMostOne (f : Flags) : Prop := ¬(f.e ∧ f.g) ∧ ¬(f.e ∧ f.l) ∧ ¬(f.g ∧ f.l)

/-- The fault record is as reset leaves it (10_state.md rule R43). -/
def faultRecordClear (s : State) : Prop :=
  s.cause = .none ∧ s.faultPc = 0 ∧ s.faultKind = none ∧ s.faultValue = 0

/-- The fault record is one that 60_exceptions.md rules R221 to R223 give: an unknown byte at the pc; an operand address
or a pc of 256; an index byte of 8 to 255; or a division by zero. -/
def faultRecordLegal (s : State) : Prop :=
  match s.cause with
  | .none => False
  | .unknownOpcode =>
    s.pc ≤ 255 ∧ decodeOpcode (Memory.get s.mem s.pc) = none ∧ s.faultKind = none ∧
      s.faultValue = (Memory.get s.mem s.pc).toNat
  | .outOfRange =>
    (s.faultKind = some .address ∧ s.faultValue = 256 ∧ 254 ≤ s.pc) ∨
    (s.faultKind = some .register ∧ 8 ≤ s.faultValue ∧ s.faultValue ≤ 255)
  | .divideByZero => s.faultKind = none ∧ s.faultValue = 0

/-- The invariant every step keeps. -/
structure StateInv (s : State) : Prop where
  /-- 10_state.md rule R27. -/
  pcRange : s.pc ≤ 256
  /-- Memory keeps its canonical form, so it has cells at 0 to 255 only (20_memory.md rule R50). -/
  memWf : Memory.wf s.mem = true
  /-- 43_compare.md rule R171. -/
  flagsOneHot : s.flags.atMostOne
  /-- The fault record is clear unless a fault ended the run (10_state.md rule R43). -/
  clearUnlessFaulted : s.status ≠ .faulted → faultRecordClear s
  /-- A fault is recorded at the pc, which it left unchanged (60_exceptions.md rules R222 to R225). -/
  faultedRecord : s.status = .faulted → s.faultPc = s.pc ∧ faultRecordLegal s
  /-- After HALT the pc holds the HALT's address (10_state.md rule R33). -/
  haltedAtHalt : s.status = .halted → s.pc ≤ 255 ∧ decodeOpcode (Memory.get s.mem s.pc) = some .halt

/-- A run that ended as the source calls success: by HALT (41_halt_load_print.md rule R131). -/
def RunResult.succeeded : RunResult → Bool
  | .ended s => decide (s.status = .halted)
  | .notEnded _ => false
  | .stuck => false

/-- A safe run from `s`: within no number of steps does it fault. -/
def SafeFrom (s : State) : Prop := ∀ fuel t, run fuel s = .ended t → t.status = .halted

end Sys2Proof.Machine
end

