-- ==== Sys2Proof/Certificates/Slice0/Obligations.lean ====
section
/-! DEFINITION. The statements for the provers. Each docstring names the rule of spec/ it comes from; a statement that rests
on a decision D<n>, which the spec marks as its own choice, says so and names the log entry. -/

open Sys2Proof Sys2Proof.Machine

/-! ### Reset, load and the invariant -/

/-- 10_state.md rule R25: every register is 0 after reset, and reading one nothing has written (here by PRN) gives 0 and
is no fault. -/
def Obligations.ResetRegistersReadZero : Prop :=
  (∀ i : Fin 8, getReg State.reset i = 0) ∧
  (∀ r : Byte, r.toNat < 8 → exec (.prn r) State.reset = .next { State.reset with out := [0], pc := 2 })

/-- 10_state.md section 7 (its table): every other field after reset, and every address reads 0. The status fields and
reset as construction are the spec's decisions D12 and D19 (log entry 15). -/
def Obligations.ResetLeavesEveryField : Prop :=
  State.reset.pc = 0 ∧ State.reset.flags = ⟨false, false, false⟩ ∧ (∀ a, Memory.get State.reset.mem a = 0) ∧
  State.reset.out = [] ∧ State.reset.status = .running ∧ State.reset.cause = .none ∧ State.reset.faultPc = 0 ∧
  State.reset.faultKind = none ∧ State.reset.faultValue = 0

/-- The invariant holds at reset (10_state.md section 7; the status fields are decision D12, log entry 15). -/
def Obligations.ResetMeetsInvariant : Prop := StateInv State.reset

/-- Every step from a state that meets the invariant gives a state that meets it: the pc stays in 0 to 256 (decision D9),
memory keeps its canonical form, at most one flag is set, the fault record is clear unless a fault ended the run and then
is one of the records of 60_exceptions.md section 1 at the unchanged pc (decisions D7, D12), and a halted machine stands
at its HALT (decision D8). -/
def Obligations.StepKeepsInvariant : Prop := ∀ s t, StateInv s → step s = .next t → StateInv t

/-- 70_reset_and_hazards.md section 1: a legal image is written from address 0 and nothing else changes; any other image is
refused. The limits are the spec's decision D20 (log entry 9). -/
def Obligations.LoadWritesImageOrRefuses : Prop :=
  (∀ (image : List Nat) (s : State), Memory.wf s.mem = true → image.length ≤ 256 → (∀ v ∈ image, v ≤ 255) →
    ∃ m, load image s = .next { s with mem := m } ∧ Memory.wf m = true ∧
      ∀ a, Memory.get m a = match image[a]? with
        | some v => BitVec.ofNat 8 v
        | none => Memory.get s.mem a) ∧
  (∀ (image : List Nat) (s : State), (256 < image.length ∨ ∃ v ∈ image, 255 < v) →
    load image s = .refused .illegalLoadImage)

/-- From reset and a load, however far the loop runs and however it ends, the state meets the invariant (70_reset_and_hazards.md
section 1, 40_fetch_decode_execute.md section 1). The invariant rests on decisions D7, D8, D9 and D12, the load on D20, the
fuel on D27 (log entries 5, 9, 12, 15). -/
def Obligations.EveryRunKeepsInvariant : Prop :=
  ∀ image s, boot image = .next s → ∀ fuel t, (run fuel s = .ended t ∨ run fuel s = .notEnded t) → StateInv t

/-! ### Memory -/

/-- 20_memory.md rule R51: the memory contract. Both ports fail with an OutOfRange error where the address is not in
[0,255], and answer where it is. -/
def Obligations.MemoryPortsAreBoundsChecked : Prop :=
  (∀ m a, a ≤ 255 → memRead m a = .ok (Memory.get m a)) ∧
  (∀ m a v, a ≤ 255 → ∃ m', memWrite m a v = .ok m') ∧
  (∀ m a, 255 < a → memRead m a = .error (.outOfRangeAddress a)) ∧
  (∀ m a v, 255 < a → memWrite m a v = .error (.outOfRangeAddress a))

/-- 20_memory.md section 1: a write changes exactly one cell, writing the same byte again changes nothing, and memory
stays canonical. -/
def Obligations.MemoryWriteTouchesOneCell : Prop :=
  ∀ m a v m', Memory.wf m = true → memWrite m a v = .ok m' →
    Memory.wf m' = true ∧ (∀ b, Memory.get m' b = if b = a then v else Memory.get m b) ∧ memWrite m' a v = .ok m'

/-- The canonical form does its work: two canonical memories that read alike at every address are the same list
(20_memory.md section 1; the form is the model's, log entry 7). -/
def Obligations.CanonicalMemoryIsFixedByItsBytes : Prop :=
  ∀ m m', Memory.wf m = true → Memory.wf m' = true → (∀ a, Memory.get m a = Memory.get m' a) → m = m'

/-! ### Encoding -/

/-- The default opcode map is a legal value of OPCODE_MAP (30_encoding.md section 3; decision D1, log entry 3). -/
def Obligations.DefaultOpcodeMapIsLegal : Prop := LegalOpcodeMap opcodeMap

/-- Decoding an encoded instruction gives it back, every operand byte at every value, whatever follows it: under every
legal OPCODE_MAP, and under the machine's (30_encoding.md sections 1 to 3). -/
def Obligations.DecodeOfEncode : Prop :=
  (∀ map, LegalOpcodeMap map → ∀ (i : Instr) (rest : List Byte),
    decodeWith map (i.encodeWith map ++ rest) = .ok (i, rest)) ∧
  (∀ (i : Instr) (rest : List Byte), decode (i.encode ++ rest) = .ok (i, rest))

/-- The other direction: bytes that decode to an instruction are that instruction's encoding (30_encoding.md sections 1
to 3). -/
def Obligations.EncodeOfDecode : Prop :=
  ∀ map, LegalOpcodeMap map → ∀ (bytes : List Byte) (i : Instr) (rest : List Byte),
    decodeWith map bytes = .ok (i, rest) → bytes = i.encodeWith map ++ rest

/-- 30_encoding.md rule R71: the width is told by the two high bits of the opcode byte, `1 + op[7:6]`, and the decoder
honors it for every byte it accepts. -/
def Obligations.WidthIsInTheOpcodeByte : Prop :=
  (∀ op : Byte, operandCount op = op.toNat / 64) ∧
  (∀ (op : Byte) (rest : List Byte) (i : Instr) (rest' : List Byte), decode (op :: rest) = .ok (i, rest') →
    (op :: rest).length = (1 + op.toNat / 64) + rest'.length ∧ i.width = 1 + op.toNat / 64) ∧
  (∀ i : Instr, i.encode.length = 1 + (opcodeMap i.mnemonic).toNat / 64)

/-- 30_encoding.md rule R80: every byte but the 14 is an unknown opcode, 242 of them, 0x00 and 0xC0 to 0xFF among them, and
fetching one raises UnknownOpcode carrying the byte. -/
def Obligations.UnknownOpcodesFault : Prop :=
  (∀ op : Byte, decodeOpcode op = none ↔ ∀ m, opcodeMap m ≠ op) ∧
  ((List.range 256).filter (fun v => decide (decodeOpcode (BitVec.ofNat 8 v) = none))).length = 242 ∧
  decodeOpcode 0x00 = none ∧ (∀ op : Byte, 0xC0 ≤ op.toNat → decodeOpcode op = none) ∧
  (∀ s : State, s.status = .running → s.pc ≤ 255 → decodeOpcode (Memory.get s.mem s.pc) = none →
    step s = .next (raise (.unknownOpcode (Memory.get s.mem s.pc)) s))

/-- The control words agree with the opcode bytes, the instruction syntax and each other (40_fetch_decode_execute.md
section 1, its table; 30_encoding.md section 1). -/
def Obligations.ControlWordsAgreeWithSyntax : Prop :=
  ∀ i : Instr,
    i.mnemonic.controlWord.n = operandCount (opcodeMap i.mnemonic) ∧
    i.operands.length = i.mnemonic.controlWord.n ∧
    i.regOperands = i.mnemonic.controlWord.regslots.map (fun k => i.operands.getD (k - 1) 0) ∧
    (i.mnemonic.controlWord.cls = .alu ↔ i.mnemonic.controlWord.aluOp ≠ none) ∧
    (i.mnemonic.controlWord.cls = .jump ↔ i.mnemonic.controlWord.jcond ≠ .never) ∧
    instructionDecoder (opcodeMap i.mnemonic) = some i.mnemonic.controlWord

/-- Words of the spec's own examples decode to the instructions they stand for (95_test_vectors.md sections 1.2 and 2;
opcodes but HALT, LDI and PRN are decision D1). -/
def Obligations.ExampleWordsDecode : Prop :=
  decode [0x82, 0x00, 0x08] = .ok (.ldi 0 8, []) ∧ decode [0x47, 0x00] = .ok (.prn 0, []) ∧
  decode [0x01] = .ok (.halt, []) ∧ decode [0x54, 0x02] = .ok (.jmp 2, []) ∧
  decode [0xA7, 0x00, 0x09] = .ok (.cmp 0 9, []) ∧ decode [0xA4, 0x00, 0xC8] = .ok (.mod 0 200, []) ∧
  decode [0x02] = .error (.unknownOpcode 0x02)

/-! ### The step -/

/-- A step of a running machine whose bytes at the pc decode to `i` is `exec i`, with nothing around it: the pc's advance
is the instruction's own (40_fetch_decode_execute.md section 1). -/
def Obligations.StepRunsDecodedInstruction : Prop :=
  ∀ (s : State) (i : Instr) (rest : List Byte), s.status = .running → decode (fetchWindow s) = .ok (i, rest) →
    step s = exec i s

/-- A step is enabled exactly while status is RUNNING, and then always answers a next state; HALTED and FAULTED are final
(40_fetch_decode_execute.md section 1; decision D23, log entry 2). -/
def Obligations.StepEnabledExactlyWhileRunning : Prop :=
  (∀ s : State, s.status = .running → ∃ t, step s = .next t) ∧
  (∀ s : State, s.status ≠ .running → step s = .fault .stepNotEnabled)

/-- A fetch past address 255 faults and does not wrap (40_fetch_decode_execute.md section 1; decision D9, log entry 5). -/
def Obligations.FetchPastTheEndFaults : Prop :=
  ∀ s : State, s.status = .running → 255 < s.pc → step s = .next (raise (.outOfRangeAddress s.pc) s)

/-- Which fault a step reports where several could apply, and that a step to which none applies does not fault: the whole
order of 60_exceptions.md section 2, which is the spec's decision D6 (log entry 15). Its branches rest on more of the spec's
choices: a pc above 255 that faults at the fetch on D9 (log entry 5), the index check of an untaken JEQ or JNE on D10 (log
entry 15), the index check of SHL's and SHR's second byte on D5 (log entry 4), and what `raise` records on D7 and D12 (log
entry 15). `op`, `b1` and `b2` are the bytes at the pc and after it. -/
def Obligations.FirstFaultIsReported : Prop :=
  ∀ s : State, s.status = .running →
    let op := Memory.get s.mem s.pc
    let b1 := Memory.get s.mem (s.pc + 1)
    let b2 := Memory.get s.mem (s.pc + 2)
    if 255 < s.pc then step s = .next (raise (.outOfRangeAddress s.pc) s)
    else match decodeOpcode op with
      | none => step s = .next (raise (.unknownOpcode op) s)
      | some m =>
        if 1 ≤ operandCount op ∧ 255 < s.pc + 1 then step s = .next (raise (.outOfRangeAddress (s.pc + 1)) s)
        else if 2 ≤ operandCount op ∧ 255 < s.pc + 2 then step s = .next (raise (.outOfRangeAddress (s.pc + 2)) s)
        else if 1 ∈ m.controlWord.regslots ∧ 7 < b1.toNat then step s = .next (raise (.outOfRangeRegister b1) s)
        else if 2 ∈ m.controlWord.regslots ∧ 7 < b2.toNat then step s = .next (raise (.outOfRangeRegister b2) s)
        else if m = .mod ∧ s.regs[b2.toNat]? = some 0 then step s = .next (raise .divideByZero s)
        else ∃ t, step s = .next t ∧ t.status ≠ .faulted

/-- What fault entry records and that it changes nothing else (60_exceptions.md sections 1 and 2; the fields are decision
D12, precision is decision D7, log entry 15). -/
def Obligations.FaultEntryRecords : Prop :=
  (∀ s op, raise (.unknownOpcode op) s = { s with
    status := .faulted, cause := .unknownOpcode, faultPc := s.pc, faultKind := none, faultValue := op.toNat }) ∧
  (∀ s a, raise (.outOfRangeAddress a) s = { s with
    status := .faulted, cause := .outOfRange, faultPc := s.pc, faultKind := some .address, faultValue := a }) ∧
  (∀ s b, raise (.outOfRangeRegister b) s = { s with
    status := .faulted, cause := .outOfRange, faultPc := s.pc, faultKind := some .register, faultValue := b.toNat }) ∧
  (∀ s, raise .divideByZero s = { s with
    status := .faulted, cause := .divideByZero, faultPc := s.pc, faultKind := none, faultValue := 0 })

/-- Faults are precise: a step that ends FAULTED changes no register, flag, memory cell, output or pc, whatever the fault
(60_exceptions.md section 1; decision D7, log entry 15). -/
def Obligations.FaultingStepCommitsNothing : Prop :=
  ∀ s t, step s = .next t → t.status = .faulted →
    t = { s with status := .faulted, cause := t.cause, faultPc := s.pc, faultKind := t.faultKind,
                 faultValue := t.faultValue }

/-- 60_exceptions.md rule R220: the core raises exactly three fault classes. Every faulting step is of one of them, and
each of them is raised by some step. -/
def Obligations.ExactlyThreeFaultClasses : Prop :=
  (∀ s t, step s = .next t → t.status = .faulted →
    t.cause = .unknownOpcode ∨ t.cause = .outOfRange ∨ t.cause = .divideByZero) ∧
  (∀ c : Cause, c ≠ .none → ∃ s t, StateInv s ∧ step s = .next t ∧ t.status = .faulted ∧ t.cause = c)

/-- 20_memory.md rule R54: memory is reached only to fetch the bytes at pc, pc+1 and pc+2. No step changes memory; what an
instruction does, once fetched, does not depend on memory; and a step depends on those three bytes alone. -/
def Obligations.MemoryIsOnlyFetched : Prop :=
  (∀ s t, step s = .next t → t.mem = s.mem) ∧
  (∀ (i : Instr) (s t : State) (m : Memory), exec i s = .next t → exec i { s with mem := m } = .next { t with mem := m }) ∧
  (∀ (s t : State) (m : Memory), step s = .next t →
    (∀ k, k ≤ 2 → Memory.get m (s.pc + k) = Memory.get s.mem (s.pc + k)) →
    step { s with mem := m } = .next { t with mem := m })

/-- A step changes at most one register, appends at most one output value and takes none back, and changes only one of the
register file, the flags and the output; where it changes the status it leaves the pc, so it writes the pc or the status
(40_fetch_decode_execute.md section 1, an inference the spec marks as derived). That HALT and a fault leave the pc is
decisions D8 and D7 (log entry 15); the output channel is decision D13 (log entry 10). -/
def Obligations.StepWritesOneThing : Prop :=
  ∀ s t, step s = .next t →
    (∃ k : Fin 8, ∀ j : Fin 8, j ≠ k → getReg t j = getReg s j) ∧
    (∃ e, t.out = s.out ++ e ∧ e.length ≤ 1) ∧
    (t.regs ≠ s.regs → t.flags = s.flags ∧ t.out = s.out) ∧
    (t.flags ≠ s.flags → t.regs = s.regs ∧ t.out = s.out) ∧
    (t.out ≠ s.out → t.regs = s.regs ∧ t.flags = s.flags) ∧
    (t.status ≠ s.status → t.pc = s.pc)

/-- 10_state.md rules R29 and R30: an instruction that does not write the pc advances it by 1 + op[7:6]; JMP, and JEQ or
JNE when taken, write `x[r]` and do not advance as well; an untaken JEQ or JNE advances by 2. HALT, which ends the run,
and a step that faults are not advances. -/
def Obligations.PcAdvancesOrJumps : Prop :=
  (∀ i s t, exec i s = .next t → t.status ≠ .faulted → i ≠ .halt →
    (∀ r, i ≠ .jmp r ∧ i ≠ .jeq r ∧ i ≠ .jne r) → t.pc = s.pc + 1 + (opcodeMap i.mnemonic).toNat / 64) ∧
  (∀ (r : Byte) (s : State) (h : r.toNat < 8), ∃ t, exec (.jmp r) s = .next t ∧ t.pc = s.regs[r.toNat].toNat) ∧
  (∀ (r : Byte) (s : State) (h : r.toNat < 8), ∃ t, exec (.jeq r) s = .next t ∧
    t.pc = if s.flags.e then s.regs[r.toNat].toNat else s.pc + 2) ∧
  (∀ (r : Byte) (s : State) (h : r.toNat < 8), ∃ t, exec (.jne r) s = .next t ∧
    t.pc = if s.flags.e then s.pc + 2 else s.regs[r.toNat].toNat)

/-! ### Whole-machine rules about flags and output -/

/-- 10_state.md rule R35 and 43_compare.md rule R172: only CMP writes the flags, and it writes all three every time,
whatever they held; no other instruction, and no step that runs another, changes one. -/
def Obligations.OnlyCompareWritesFlags : Prop :=
  (∀ i s t, exec i s = .next t → (∀ ra rb, i ≠ .cmp ra rb) → t.flags = s.flags) ∧
  (∀ s t, step s = .next t → t.flags ≠ s.flags → ∃ ra rb, fetch s = .ok (.cmp ra rb)) ∧
  (∀ (ra rb : Byte) (s : State) (ha : ra.toNat < 8) (hb : rb.toNat < 8), ∃ t, exec (.cmp ra rb) s = .next t ∧
    t.flags.e = decide (s.regs[ra.toNat].toNat = s.regs[rb.toNat].toNat) ∧
    t.flags.g = decide (s.regs[ra.toNat].toNat > s.regs[rb.toNat].toNat) ∧
    t.flags.l = decide (s.regs[ra.toNat].toNat < s.regs[rb.toNat].toNat))

/-- 10_state.md rule R36: JEQ jumps when E = 1 and JNE when E = 0, each falling through by 2 on the other value of E, and
no instruction reads G or L: a step from states that differ in G and L alone gives states that differ in G and L alone. They are still updatable: CMP sets each. -/
def Obligations.GreaterAndLessAreUnread : Prop :=
  (∀ s t g l, step s = .next t → ∃ g' l',
    step { s with flags := { s.flags with g := g, l := l } } = .next { t with flags := { t.flags with g := g', l := l' } }) ∧
  (∀ (r : Byte) (s : State) (h : r.toNat < 8),
    (s.flags.e = true → exec (.jeq r) s = .next { s with pc := s.regs[r.toNat].toNat } ∧
      exec (.jne r) s = .next { s with pc := s.pc + 2 }) ∧
    (s.flags.e = false → exec (.jeq r) s = .next { s with pc := s.pc + 2 } ∧
      exec (.jne r) s = .next { s with pc := s.regs[r.toNat].toNat })) ∧
  (∀ (ra rb : Byte) (s : State) (ha : ra.toNat < 8) (hb : rb.toNat < 8),
    exec (.cmp ra rb) s = .next { s with
      flags := ⟨decide (s.regs[ra.toNat] = s.regs[rb.toNat]), decide (s.regs[ra.toNat].toNat > s.regs[rb.toNat].toNat),
        decide (s.regs[ra.toNat].toNat < s.regs[rb.toNat].toNat)⟩,
      pc := s.pc + 3 })

/-- 44_alu.md rule R182: no ALU instruction reads or writes a flag. Whatever the flags are, the seven leave them as they
are and do the same. -/
def Obligations.AluIgnoresFlags : Prop :=
  ∀ (ra rb : Byte) (s t : State) (f : Flags),
    ∀ i ∈ [Instr.and ra rb, .or ra rb, .not ra, .shl ra rb, .shr ra rb, .mod ra rb, .xor ra rb],
      exec i s = .next t → t.flags = s.flags ∧ exec i { s with flags := f } = .next { t with flags := f }

/-- The output channel only grows, by at most one value a step, only under PRN, and nothing a step does depends on what is
in it (10_state.md section 5; decision D13, log entry 10). -/
def Obligations.OutputIsWriteOnly : Prop :=
  ∀ s t o, step s = .next t →
    ∃ e, t.out = s.out ++ e ∧ e.length ≤ 1 ∧ (e ≠ [] → ∃ r, fetch s = .ok (.prn r)) ∧
      step { s with out := o } = .next { t with out := o ++ e }

/-! ### The instructions -/

/-- HALT: status HALTED, and nothing else changes; the pc keeps its address (41_halt_load_print.md, HALT; decision D8, log
entry 15). -/
def Obligations.HaltStopsInPlace : Prop :=
  (∀ s : State, exec .halt s = .next { s with status := .halted }) ∧
  (∀ s : State, s.status = .running → s.pc ≤ 255 → Memory.get s.mem s.pc = 0x01 →
    step s = .next { s with status := .halted })

/-- HALT is the only successful end of a run, and the host reports it, and nothing else, as exit status 0
(41_halt_load_print.md, after HALT). The second half needs a fault's exit status to be non-zero (60_exceptions.md section 8),
which the model has by the form it chose for the open EXIT_CODES, one more than a free value (decision D26, log entry 6). -/
def Obligations.HaltIsTheOnlySuccess : Prop :=
  (∀ s t, step s = .next t → (t.status = .halted ↔ fetch s = .ok .halt)) ∧
  (∀ s : State, exitStatus s = some 0 ↔ s.status = .halted)

/-- 41_halt_load_print.md rule R132: LDI, with every immediate loaded unchanged, no flag written, a register index above 7
and an operand past address 255 each OutOfRange, and opcode 0x82, width 3. -/
def Obligations.LdiLoadsImmediate : Prop :=
  (∀ (r imm : Byte) (s : State) (h : r.toNat < 8),
    exec (.ldi r imm) s = .next { s with regs := s.regs.set r.toNat imm, pc := s.pc + 3 }) ∧
  (∀ (r imm : Byte) (s : State), 7 < r.toNat → exec (.ldi r imm) s = .next (raise (.outOfRangeRegister r) s)) ∧
  (∀ s : State, s.status = .running → s.pc ≤ 253 → Memory.get s.mem s.pc = 0x82 →
    step s = exec (.ldi (Memory.get s.mem (s.pc + 1)) (Memory.get s.mem (s.pc + 2))) s) ∧
  (∀ s : State, s.status = .running → (s.pc = 254 ∨ s.pc = 255) → Memory.get s.mem s.pc = 0x82 →
    step s = .next (raise (.outOfRangeAddress 256) s))

/-- PRN emits `x[r]` and changes nothing else but the pc; with a register index above 7 nothing is emitted
(41_halt_load_print.md, PRN; the channel is decision D13, log entry 10). -/
def Obligations.PrnEmitsRegister : Prop :=
  (∀ (r : Byte) (s : State) (h : r.toNat < 8),
    exec (.prn r) s = .next { s with out := s.out ++ [s.regs[r.toNat]], pc := s.pc + 2 }) ∧
  (∀ (r : Byte) (s : State), 7 < r.toNat → exec (.prn r) s = .next (raise (.outOfRangeRegister r) s)) ∧
  (∀ s : State, s.status = .running → s.pc ≤ 254 → Memory.get s.mem s.pc = 0x47 →
    step s = exec (.prn (Memory.get s.mem (s.pc + 1))) s) ∧
  (∀ s : State, s.status = .running → s.pc = 255 → Memory.get s.mem s.pc = 0x47 →
    step s = .next (raise (.outOfRangeAddress 256) s))

/-- JMP writes the pc and nothing else (42_jumps.md, JMP; the opcode 0x54 is decision D1, log entry 3). -/
def Obligations.JmpOverwritesPc : Prop :=
  (∀ (r : Byte) (s : State) (h : r.toNat < 8),
    exec (.jmp r) s = .next { s with pc := s.regs[r.toNat].toNat }) ∧
  (∀ s : State, s.status = .running → s.pc ≤ 254 → Memory.get s.mem s.pc = 0x54 →
    step s = exec (.jmp (Memory.get s.mem (s.pc + 1))) s) ∧
  (∀ s : State, s.status = .running → s.pc = 255 → Memory.get s.mem s.pc = 0x54 →
    step s = .next (raise (.outOfRangeAddress 256) s))

/-- JEQ and JNE: taken on E = 1 and on E = 0, else advance by 2; nothing else changes (42_jumps.md, JEQ and JNE; the
opcodes 0x55 and 0x56 are decision D1, log entry 3). -/
def Obligations.ConditionalJumpsReadEqual : Prop :=
  (∀ (r : Byte) (s : State) (h : r.toNat < 8),
    exec (.jeq r) s = .next { s with pc := if s.flags.e then s.regs[r.toNat].toNat else s.pc + 2 } ∧
    exec (.jne r) s = .next { s with pc := if s.flags.e then s.pc + 2 else s.regs[r.toNat].toNat }) ∧
  (∀ s : State, s.status = .running → s.pc ≤ 254 →
    (Memory.get s.mem s.pc = 0x55 → step s = exec (.jeq (Memory.get s.mem (s.pc + 1))) s) ∧
    (Memory.get s.mem s.pc = 0x56 → step s = exec (.jne (Memory.get s.mem (s.pc + 1))) s))

/-- Given the same flag state, exactly one of JEQ and JNE takes its jump and the other falls through by 2 (42_jumps.md, last
section; an inference the spec marks as derived). -/
def Obligations.ExactlyOneBranchIsTaken : Prop :=
  ∀ (r : Byte) (s : State) (h : r.toNat < 8),
    (exec (.jeq r) s = .next { s with pc := s.regs[r.toNat].toNat } ∧ exec (.jne r) s = .next { s with pc := s.pc + 2 }) ∨
    (exec (.jne r) s = .next { s with pc := s.regs[r.toNat].toNat } ∧ exec (.jeq r) s = .next { s with pc := s.pc + 2 })

/-- CMP: an unsigned comparison into all three flags, nothing else but the pc (43_compare.md, CMP; the opcode 0xA7 is
decision D1, log entry 3). -/
def Obligations.CmpComparesUnsigned : Prop :=
  (∀ (ra rb : Byte) (s : State) (ha : ra.toNat < 8) (hb : rb.toNat < 8),
    exec (.cmp ra rb) s = .next { s with
      flags := ⟨decide (s.regs[ra.toNat] = s.regs[rb.toNat]), decide (s.regs[rb.toNat].toNat < s.regs[ra.toNat].toNat),
        decide (s.regs[ra.toNat].toNat < s.regs[rb.toNat].toNat)⟩,
      pc := s.pc + 3 }) ∧
  (∀ s : State, s.status = .running → s.pc ≤ 253 → Memory.get s.mem s.pc = 0xA7 →
    step s = exec (.cmp (Memory.get s.mem (s.pc + 1)) (Memory.get s.mem (s.pc + 2))) s)

/-- After any CMP that completes exactly one of E, G and L is 1 (43_compare.md, the rule after CMP, which the spec marks as
derived). -/
def Obligations.CompareSetsExactlyOneFlag : Prop :=
  ∀ (ra rb : Byte) (s : State), ra.toNat < 8 → rb.toNat < 8 → ∃ t, exec (.cmp ra rb) s = .next t ∧
    (t.flags = ⟨true, false, false⟩ ∨ t.flags = ⟨false, true, false⟩ ∨ t.flags = ⟨false, false, true⟩)

/-- AND, OR and XOR: bit k of the result is the operation on bit k of the operands; the result goes to ra (44_alu.md section
2; the destination is decision D2, the opcodes decision D1, log entries 3 and 15). -/
def Obligations.BitwiseLogicIsBitByBit : Prop :=
  (∀ (ra rb : Byte) (s : State) (ha : ra.toNat < 8) (hb : rb.toNat < 8), ∃ va vo vx : Byte,
    exec (.and ra rb) s = .next { s with regs := s.regs.set ra.toNat va, pc := s.pc + 3 } ∧
    exec (.or ra rb) s = .next { s with regs := s.regs.set ra.toNat vo, pc := s.pc + 3 } ∧
    exec (.xor ra rb) s = .next { s with regs := s.regs.set ra.toNat vx, pc := s.pc + 3 } ∧
    ∀ k, k < 8 →
      va.getLsbD k = (s.regs[ra.toNat].getLsbD k && s.regs[rb.toNat].getLsbD k) ∧
      vo.getLsbD k = (s.regs[ra.toNat].getLsbD k || s.regs[rb.toNat].getLsbD k) ∧
      vx.getLsbD k = (s.regs[ra.toNat].getLsbD k ^^ s.regs[rb.toNat].getLsbD k)) ∧
  (∀ s : State, s.status = .running → s.pc ≤ 253 →
    (Memory.get s.mem s.pc = 0xA8 →
      step s = exec (.and (Memory.get s.mem (s.pc + 1)) (Memory.get s.mem (s.pc + 2))) s) ∧
    (Memory.get s.mem s.pc = 0xAA →
      step s = exec (.or (Memory.get s.mem (s.pc + 1)) (Memory.get s.mem (s.pc + 2))) s) ∧
    (Memory.get s.mem s.pc = 0xAB →
      step s = exec (.xor (Memory.get s.mem (s.pc + 1)) (Memory.get s.mem (s.pc + 2))) s))

/-- NOT writes `255 - x[r]` to r (44_alu.md section 2; the destination is decision D3, the opcode 0x69 decision D1, log
entries 3 and 15). -/
def Obligations.NotComplements : Prop :=
  (∀ (r : Byte) (s : State) (h : r.toNat < 8), ∃ v : Byte, v.toNat = 255 - s.regs[r.toNat].toNat ∧
    exec (.not r) s = .next { s with regs := s.regs.set r.toNat v, pc := s.pc + 2 }) ∧
  (∀ s : State, s.status = .running → s.pc ≤ 254 → Memory.get s.mem s.pc = 0x69 →
    step s = exec (.not (Memory.get s.mem (s.pc + 1))) s)

/-- SHL and SHR by the count in rb, never masked: `x[ra] * 2^k mod 256` and `x[ra] / 2^k`, so a count of 8 or more gives 0
(44_alu.md section 2; the form of the count is decision D5, the opcodes decision D1, log entries 3 and 4). -/
def Obligations.ShiftsAreLogicalAndUnmasked : Prop :=
  (∀ (ra rb : Byte) (s : State) (ha : ra.toNat < 8) (hb : rb.toNat < 8), ∃ vl vr : Byte,
    exec (.shl ra rb) s = .next { s with regs := s.regs.set ra.toNat vl, pc := s.pc + 3 } ∧
    exec (.shr ra rb) s = .next { s with regs := s.regs.set ra.toNat vr, pc := s.pc + 3 } ∧
    vl.toNat = s.regs[ra.toNat].toNat * 2 ^ s.regs[rb.toNat].toNat % 256 ∧
    vr.toNat = s.regs[ra.toNat].toNat / 2 ^ s.regs[rb.toNat].toNat ∧
    (8 ≤ s.regs[rb.toNat].toNat → vl = 0 ∧ vr = 0)) ∧
  (∀ s : State, s.status = .running → s.pc ≤ 253 →
    (Memory.get s.mem s.pc = 0xAC →
      step s = exec (.shl (Memory.get s.mem (s.pc + 1)) (Memory.get s.mem (s.pc + 2))) s) ∧
    (Memory.get s.mem s.pc = 0xAD →
      step s = exec (.shr (Memory.get s.mem (s.pc + 1)) (Memory.get s.mem (s.pc + 2))) s))

/-- The other value of SHIFT_AMOUNT_SOURCE (92_eei_decisions.md D5): with `immediate` the count is the byte itself, which
is not index-checked. It is the named alternative, not what the machine runs (log entry 4). -/
def Obligations.ImmediateShiftAmountVariant : Prop :=
  ∀ (ra k : Byte) (s : State) (ha : ra.toNat < 8), ∃ vl vr : Byte,
    shiftInstr .immediate .shl ra k s = .next { s with regs := s.regs.set ra.toNat vl, pc := s.pc + 3 } ∧
    shiftInstr .immediate .shr ra k s = .next { s with regs := s.regs.set ra.toNat vr, pc := s.pc + 3 } ∧
    vl.toNat = s.regs[ra.toNat].toNat * 2 ^ k.toNat % 256 ∧ vr.toNat = s.regs[ra.toNat].toNat / 2 ^ k.toNat

/-- MOD writes the unsigned remainder to ra where `x[rb]` is not 0, and raises DivideByZero where it is, the indices
being legal (44_alu.md section 2; the destination is decision D4, the opcode 0xA4 decision D1, log entries 3 and 15). -/
def Obligations.ModRemainderOrDivideByZero : Prop :=
  (∀ (ra rb : Byte) (s : State) (ha : ra.toNat < 8) (hb : rb.toNat < 8), s.regs[rb.toNat] ≠ 0 →
    ∃ v : Byte, v.toNat = s.regs[ra.toNat].toNat % s.regs[rb.toNat].toNat ∧
      exec (.mod ra rb) s = .next { s with regs := s.regs.set ra.toNat v, pc := s.pc + 3 }) ∧
  (∀ (ra rb : Byte) (s : State) (_ : ra.toNat < 8) (hb : rb.toNat < 8), s.regs[rb.toNat] = 0 →
    exec (.mod ra rb) s = .next (raise .divideByZero s)) ∧
  (∀ s : State, s.status = .running → s.pc ≤ 253 → Memory.get s.mem s.pc = 0xA4 →
    step s = exec (.mod (Memory.get s.mem (s.pc + 1)) (Memory.get s.mem (s.pc + 2))) s)

/-- An instruction with a register index above 7 faults OutOfRange(register) with the first such byte in operand order,
whatever the rest of the state: a JEQ or JNE that would not be taken too. LDI's immediate is never checked
(40_fetch_decode_execute.md section 1). These are choices of the spec's own: the operand order is decision D6 and the untaken
branch D10 (log entry 15), and the check of SHL's and SHR's second byte is decision D5 (log entry 4: an immediate amount would
not be checked). That well-formed means no such index is the model's choice (DEDUCED, log entry 14). -/
def Obligations.IllegalIndexFaults : Prop :=
  (∀ (i : Instr) (s : State) (b : Byte), i.regOperands.find? (fun b => decide (7 < b.toNat)) = some b →
    exec i s = .next (raise (.outOfRangeRegister b) s)) ∧
  (∀ i : Instr, i.wellFormed = true ↔ i.regOperands.find? (fun b => decide (7 < b.toNat)) = none)

/-- What `alu_handlers` computes: NOT, SHL, SHR and MOD as numbers, AND, OR and XOR bit by bit, the identities the spec lists
for these three, and `div0` (44_alu.md sections 1, 2 and 3, of which the spec marks parts as derived and as decisions D2 to
D5, log entries 4 and 15). -/
def Obligations.AluResultsAsNumbers : Prop :=
  ∀ a b : Byte,
    (aluResult .not a b).toNat = 255 - a.toNat ∧
    (aluResult .shl a b).toNat = a.toNat * 2 ^ b.toNat % 256 ∧
    (aluResult .shr a b).toNat = a.toNat / 2 ^ b.toNat ∧
    (b ≠ 0 → (aluResult .mod a b).toNat = a.toNat % b.toNat ∧ (aluResult .mod a b).toNat < b.toNat) ∧
    (∀ k, k < 8 →
      (aluResult .and a b).getLsbD k = (a.getLsbD k && b.getLsbD k) ∧
      (aluResult .or a b).getLsbD k = (a.getLsbD k || b.getLsbD k) ∧
      (aluResult .xor a b).getLsbD k = (a.getLsbD k ^^ b.getLsbD k)) ∧
    aluResult .and a a = a ∧ aluResult .and a 0 = 0 ∧ aluResult .and a 255 = a ∧
    aluResult .or a a = a ∧ aluResult .or a 0 = a ∧ aluResult .or a 255 = 255 ∧
    aluResult .xor a a = 0 ∧ aluResult .xor a 0 = a ∧ (aluResult .xor a 255).toNat = 255 - a.toNat ∧
    (∀ op, aluDiv0 op b = true ↔ op = .mod ∧ b = 0)

/-! ### Frames -/

/-- The frame of LDI, AND, OR, NOT, SHL, SHR, MOD and XOR: every register but the destination, the flags, the output and
every byte of memory are unchanged, fault or no fault; the status fields are unchanged unless the step faults
(10_state.md section 1). Destinations are decisions D2 to D5 and what a fault leaves is D7 (log entries 4, 15). -/
def Obligations.FrameOfRegisterWriters : Prop :=
  ∀ (ra b : Byte) (s t : State),
    ∀ i ∈ [Instr.ldi ra b, .and ra b, .or ra b, .not ra, .shl ra b, .shr ra b, .mod ra b, .xor ra b],
      exec i s = .next t →
        (∀ k : Fin 8, k.val ≠ ra.toNat → getReg t k = getReg s k) ∧ t.flags = s.flags ∧ t.out = s.out ∧
        (∀ a, Memory.get t.mem a = Memory.get s.mem a) ∧
        (t.status ≠ .faulted → t.status = s.status ∧ t.cause = s.cause ∧ t.faultPc = s.faultPc ∧
          t.faultKind = s.faultKind ∧ t.faultValue = s.faultValue)

/-- The frame of CMP, PRN and HALT: no register and no byte of memory changes; only CMP changes flags, only PRN the output,
and only HALT the status where the step does not fault (10_state.md sections 1 and 3). That HALT leaves the pc is a choice of
the spec's own, decision D8, and what a fault leaves is decision D7 (log entry 15). -/
def Obligations.FrameOfCmpPrnHalt : Prop :=
  ∀ (ra rb : Byte) (s t : State), ∀ i ∈ [Instr.cmp ra rb, .prn ra, .halt], exec i s = .next t →
    t.regs = s.regs ∧ (∀ a, Memory.get t.mem a = Memory.get s.mem a) ∧
    (i ≠ .cmp ra rb → t.flags = s.flags) ∧ (i ≠ .prn ra → t.out = s.out) ∧
    (i = .halt → t.pc = s.pc) ∧
    (t.status ≠ .faulted → (i ≠ .halt → t.status = s.status) ∧ t.cause = s.cause ∧ t.faultPc = s.faultPc ∧
      t.faultKind = s.faultKind ∧ t.faultValue = s.faultValue)

/-- The frame of JMP, JEQ and JNE: the pc alone changes where the step does not fault, and the status fields alone where it
does (42_jumps.md; what a fault leaves is decision D7, log entry 15). -/
def Obligations.FrameOfJumps : Prop :=
  ∀ (r : Byte) (s t : State), ∀ i ∈ [Instr.jmp r, .jeq r, .jne r], exec i s = .next t →
    t.regs = s.regs ∧ t.flags = s.flags ∧ t.out = s.out ∧ (∀ a, Memory.get t.mem a = Memory.get s.mem a) ∧
    (t.status ≠ .faulted → t = { s with pc := t.pc })

/-! ### Two steps, many steps, two designs -/

/-- LDI r, v followed by PRN r emits exactly `v` (41_halt_load_print.md, the property after LDI, which the spec marks as
derived; the channel is decision D13, log entry 10): from any running state with the five bytes at the pc. -/
def Obligations.LoadThenPrintEmits : Prop :=
  ∀ (s : State) (r v : Byte), s.status = .running → s.pc ≤ 251 → r.toNat < 8 →
    Memory.get s.mem s.pc = 0x82 → Memory.get s.mem (s.pc + 1) = r → Memory.get s.mem (s.pc + 2) = v →
    Memory.get s.mem (s.pc + 3) = 0x47 → Memory.get s.mem (s.pc + 4) = r →
    ∃ t u, step s = .next t ∧ step t = .next u ∧ t.out = s.out ∧ u.out = s.out ++ [v] ∧ u.pc = s.pc + 5

/-- There is no hazard: a JEQ or JNE right after a CMP sees the E that CMP wrote (70_reset_and_hazards.md section 3; decision
D24, log entry 15; the opcodes are decision D1, log entry 3). -/
def Obligations.BranchSeesThePrecedingCompare : Prop :=
  ∀ (s : State) (ra rb r : Byte) (_ : ra.toNat < 8) (_ : rb.toNat < 8) (_ : r.toNat < 8), s.status = .running →
    s.pc ≤ 251 → Memory.get s.mem s.pc = 0xA7 → Memory.get s.mem (s.pc + 1) = ra → Memory.get s.mem (s.pc + 2) = rb →
    Memory.get s.mem (s.pc + 4) = r →
    ∃ t, step s = .next t ∧
      (Memory.get s.mem (s.pc + 3) = 0x55 → ∃ u, step t = .next u ∧
        u.pc = if s.regs[ra.toNat] = s.regs[rb.toNat] then s.regs[r.toNat].toNat else s.pc + 5) ∧
      (Memory.get s.mem (s.pc + 3) = 0x56 → ∃ u, step t = .next u ∧
        u.pc = if s.regs[ra.toNat] = s.regs[rb.toNat] then s.pc + 5 else s.regs[r.toNat].toNat)

/-- A JMP to its own address never ends: under any fuel the run is "not ended" in the very same state
(40_fetch_decode_execute.md section 1; decision D27, log entry 12; the opcode is decision D1, log entry 3). -/
def Obligations.JumpToItselfNeverEnds : Prop :=
  ∀ (s : State) (r : Byte) (h : r.toNat < 8), s.status = .running → s.pc ≤ 254 →
    Memory.get s.mem s.pc = 0x54 → Memory.get s.mem (s.pc + 1) = r → s.regs[r.toNat].toNat = s.pc →
    ∀ fuel, run fuel s = .notEnded s

/-- The loop under fuel tells the truth: it never gets stuck, "ended" means HALTED or FAULTED, "not ended" means RUNNING,
and more fuel does not change how a run ended (40_fetch_decode_execute.md section 1; decision D27, log entry 12). -/
def Obligations.RunResultsAreSound : Prop :=
  (∀ fuel s, run fuel s ≠ .stuck) ∧
  (∀ fuel s t, run fuel s = .ended t → t.status = .halted ∨ t.status = .faulted) ∧
  (∀ fuel s t, run fuel s = .notEnded t → t.status = .running) ∧
  (∀ fuel more s t, run fuel s = .ended t → run (fuel + more) s = .ended t) ∧
  (∀ fuel s t, run fuel s = .ended t → ∀ fuel' t', run fuel' s = .ended t' → t' = t)

/-- Two descriptions of the machine agree on every instruction and every state: the meanings of files 41 to 44, and the
block diagram driven by the control words and connections of 40_fetch_decode_execute.md sections 1 and 2 (decision D11, log
entry 13). -/
def Obligations.MeaningsMatchTheDatapath : Prop := ∀ (i : Instr) (s : State), exec i s = execByDatapath i s

/-- The codes of status and cause (10_state.md section 5, decision D12, log entry 15), and the exit status of a fault is
not 0, whatever number the host gives it (60_exceptions.md section 8, decision D26, log entry 6). -/
def Obligations.HostCodes : Prop :=
  Status.running.code = 0 ∧ Status.halted.code = 1 ∧ Status.faulted.code = 2 ∧
  Cause.none.code = 0 ∧ Cause.unknownOpcode.code = 1 ∧ Cause.outOfRange.code = 2 ∧ Cause.divideByZero.code = 3 ∧
  (∀ s : State, s.status = .running → exitStatus s = none) ∧
  (∀ s : State, s.status = .faulted → ∃ n, exitStatus s = some n ∧ n ≠ 0)

/-- A table word placed at the pc is what the next step runs (the model's own hook for a program loaded from outside, log
entry 8; 40_fetch_decode_execute.md section 1). -/
def Obligations.PlacedWordRunsNext : Prop :=
  ∀ (s : State) (nbits w : Nat) (i : Instr), Memory.wf s.mem = true → s.pc ≤ 253 →
    decodeTableWord nbits w = some i →
    step (s.withFetchWord nbits w) = exec i (s.withFetchWord nbits w)

/-- The ports of `register_file` (40_fetch_decode_execute.md section 2; a block interface of the spec's decision D11, log
entry 15): each read port gives the register, the write port a write that takes effect at commit while a read of the same
step gives the value from before, and each reports OutOfRange(register) for an index above 7. Once the loop's check has
passed no port of any instruction reports: the datapath gives an effect, or MOD's DivideByZero. -/
def Obligations.RegisterPortsReportOutOfRange : Prop :=
  (∀ (s : State) (b : Byte) (h : b.toNat < 8), regReadPort s b = .ok s.regs[b.toNat]) ∧
  (∀ (s : State) (b : Byte), 7 < b.toNat → regReadPort s b = .error (.outOfRangeRegister b)) ∧
  (∀ (s : State) (b v : Byte) (_ : b.toNat < 8) (p : Nat), ∃ w, regWritePort true b v = .ok (some w) ∧
    ∀ c : Byte, c.toNat < 8 →
      regReadPort (commit { regWrite := some w, pcNext := p } s) c = if c = b then .ok v else regReadPort s c) ∧
  (∀ b v : Byte, 7 < b.toNat → regWritePort true b v = .error (.outOfRangeRegister b)) ∧
  (∀ b v : Byte, regWritePort false b v = .ok none) ∧
  (∀ (m : Mnemonic) (b1 b2 : Byte) (s : State), checkSlots b1 b2 m.controlWord.regslots = .ok () →
    (∃ eff, datapath m.controlWord b1 b2 s = .ok eff) ∨
    (m = .mod ∧ datapath m.controlWord b1 b2 s = .error .divideByZero))
end

