-- ==== Sys2Proof/Laws/Decode.lean ====
section
/-! SUPPORT. The opcode table read both ways, for any legal opcode map. -/

namespace Sys2Proof

open Config (OpcodeMap)

theorem Mnemonic.mem_all (m : Mnemonic) : m ∈ Mnemonic.all := by cases m <;> decide

/-- The table answers only a mnemonic whose byte it was asked for. -/
theorem decodeOpcodeWith_some {map : OpcodeMap} {op : Byte} {m : Mnemonic} (h : decodeOpcodeWith map op = some m) :
    map m = op := by
  have := List.find?_some h
  simpa using this

/-- The table answers UNKNOWN exactly for a byte of no mnemonic (30_encoding.md rule R80). -/
theorem decodeOpcodeWith_none {map : OpcodeMap} {op : Byte} :
    decodeOpcodeWith map op = none ↔ ∀ m, map m ≠ op := by
  unfold decodeOpcodeWith
  rw [List.find?_eq_none]
  constructor
  · intro h m
    simpa using h m (Mnemonic.mem_all m)
  · intro h m _
    simpa using h m

/-- Under an injective map the table finds each mnemonic by its byte. -/
theorem decodeOpcodeWith_map {map : OpcodeMap} (hinj : ∀ m m', map m = map m' → m = m') (m : Mnemonic) :
    decodeOpcodeWith map (map m) = some m := by
  cases h : decodeOpcodeWith map (map m) with
  | none => exact absurd rfl (decodeOpcodeWith_none.1 h m)
  | some m' => rw [hinj m' m (decodeOpcodeWith_some h)]

/-- The default map's bytes carry their operand counts (30_encoding.md rule R72). -/
theorem operandCount_opcodeMap (m : Mnemonic) : operandCount (opcodeMap m) = m.operandCount := by
  cases m <;> decide

/-- No instruction has more than two operand bytes (30_encoding.md rule R70). -/
theorem Mnemonic.operandCount_le (m : Mnemonic) : m.operandCount ≤ 2 := by cases m <;> decide

end Sys2Proof
end

