-- ==== Sys2Proof/Laws/Memory.lean ====
section
/-! SUPPORT. Memory: the canonical form is kept by every operation, and a write changes exactly one cell. -/

namespace Sys2Proof.Machine

@[simp] theorem Memory.get_nil (a : Nat) : Memory.get [] a = Memory.unlisted := rfl

/-- What the canonical form says of the first entry and the rest. -/
theorem Memory.wf_cons (a : Nat) (v : Byte) (rest : Memory) :
    Memory.wf ((a, v) :: rest) = true ↔
      a < 256 ∧ v ≠ Memory.unlisted ∧ (∀ c ∈ rest, a < c.1) ∧ Memory.wf rest = true := by
  simp [Memory.wf, and_assoc]

/-- An address below every entry reads as unlisted. -/
theorem Memory.get_below (m : Memory) (a : Nat) (h : ∀ c ∈ m, a < c.1) : Memory.get m a = Memory.unlisted := by
  induction m with
  | nil => rfl
  | cons c rest ih =>
    obtain ⟨b, v⟩ := c
    have hb : b ≠ a := by have := h (b, v) (by simp); simp at this; omega
    simp only [Memory.get, if_neg hb]
    exact ih (fun c hc => h c (by simp [hc]))

/-- A canonical memory lists no address above 255. -/
theorem Memory.get_above (m : Memory) (hm : Memory.wf m = true) (a : Nat) (h : 255 < a) :
    Memory.get m a = Memory.unlisted := by
  induction m with
  | nil => rfl
  | cons c rest ih =>
    obtain ⟨b, v⟩ := c
    obtain ⟨hb, -, -, hr⟩ := (Memory.wf_cons b v rest).1 hm
    have : b ≠ a := by omega
    simp only [Memory.get, if_neg this]
    exact ih hr

/-- The entries of memory after a write are the old ones and perhaps the new. -/
theorem Memory.mem_set (m : Memory) (a : Nat) (v : Byte) (c : Host.Cell) (h : c ∈ Memory.set m a v) :
    c ∈ m ∨ c = (a, v) := by
  induction m with
  | nil =>
    simp only [Memory.set] at h
    split at h <;> simp_all
  | cons d rest ih =>
    obtain ⟨b, w⟩ := d
    simp only [Memory.set] at h
    split at h
    · split at h
      · exact .inl h
      · rcases List.mem_cons.1 h with h | h
        · exact .inr h
        · exact .inl h
    · split at h
      · split at h
        · exact .inl (List.mem_cons_of_mem _ h)
        · rcases List.mem_cons.1 h with h | h
          · exact .inr h
          · exact .inl (List.mem_cons_of_mem _ h)
      · rcases List.mem_cons.1 h with h | h
        · exact .inl (h ▸ List.mem_cons_self)
        · rcases ih h with h | h
          · exact .inl (List.mem_cons_of_mem _ h)
          · exact .inr h

/-- A write below address 256 keeps the canonical form. -/
theorem Memory.wf_set (m : Memory) (a : Nat) (v : Byte) (hm : Memory.wf m = true) (ha : a < 256) :
    Memory.wf (Memory.set m a v) = true := by
  induction m with
  | nil =>
    simp only [Memory.set]
    split
    · rfl
    · exact (Memory.wf_cons a v []).2 ⟨ha, ‹_›, by simp, rfl⟩
  | cons d rest ih =>
    obtain ⟨b, w⟩ := d
    obtain ⟨hb, hw, hlt, hr⟩ := (Memory.wf_cons b w rest).1 hm
    simp only [Memory.set]
    split
    · split
      · exact hm
      · refine (Memory.wf_cons a v _).2 ⟨ha, ‹_›, ?_, hm⟩
        intro c hc
        rcases List.mem_cons.1 hc with rfl | hc
        · assumption
        · exact Nat.lt_trans ‹a < b› (hlt c hc)
    · split
      · split
        · exact hr
        · subst_vars
          exact (Memory.wf_cons _ v rest).2 ⟨ha, ‹_›, hlt, hr⟩
      · refine (Memory.wf_cons b w _).2 ⟨hb, hw, ?_, ih hr⟩
        intro c hc
        rcases Memory.mem_set rest a v c hc with hc | rfl
        · exact hlt c hc
        · simp only; omega

/-- In canonical memory a write is seen at its address and nowhere else. -/
theorem Memory.get_set (m : Memory) (a : Nat) (v : Byte) (hm : Memory.wf m = true) (x : Nat) :
    Memory.get (Memory.set m a v) x = if x = a then v else Memory.get m x := by
  induction m with
  | nil =>
    by_cases hv : v = Memory.unlisted <;> by_cases hx : x = a <;>
      simp [Memory.set, Memory.get, hv, hx, Ne.symm]
  | cons d rest ih =>
    obtain ⟨b, w⟩ := d
    obtain ⟨-, hw, hlt, hr⟩ := (Memory.wf_cons b w rest).1 hm
    by_cases hab : a < b
    · have hbelow : Memory.get ((b, w) :: rest) a = Memory.unlisted :=
        Memory.get_below _ _ (by
          intro c hc
          rcases List.mem_cons.1 hc with rfl | hc
          · exact hab
          · exact Nat.lt_trans hab (hlt c hc))
      by_cases hv : v = Memory.unlisted
      · simp only [Memory.set, if_pos hab, if_pos hv]
        split
        · subst_vars; exact hbelow
        · rfl
      · simp only [Memory.set, if_pos hab, if_neg hv]
        by_cases hx : x = a
        · subst hx; simp [Memory.get]
        · simp [Memory.get, hx, Ne.symm hx]
    · by_cases hEq : a = b
      · subst hEq
        by_cases hv : v = Memory.unlisted
        · simp only [Memory.set, Nat.lt_irrefl, if_false, if_true, if_pos hv]
          by_cases hx : x = a
          · subst hx; simp [hv, Memory.get_below rest x hlt]
          · simp [Memory.get, hx, Ne.symm hx]
        · simp only [Memory.set, Nat.lt_irrefl, if_false, if_true, if_neg hv]
          by_cases hx : x = a
          · subst hx; simp [Memory.get]
          · simp [Memory.get, hx, Ne.symm hx]
      · simp only [Memory.set, if_neg hab, if_neg hEq, Memory.get]
        by_cases hb : b = x
        · subst hb; simp [Ne.symm hEq]
        · simp only [if_neg hb]; exact ih hr

/-- The read port: what it answers, and when it fails (20_memory.md rule R51). -/
theorem memRead_spec (m : Memory) (a : Nat) :
    (a ≤ 255 ∧ memRead m a = .ok (Memory.get m a)) ∨ (255 < a ∧ memRead m a = .error (.outOfRangeAddress a)) := by
  by_cases h : a > 255
  · exact .inr ⟨h, by simp [memRead, h]⟩
  · exact .inl ⟨by omega, by simp [memRead, h]⟩

/-- The write port, where it answers at all, wrote a legal address. -/
theorem memWrite_ok {m m' : Memory} {a : Nat} {v : Byte} (h : memWrite m a v = .ok m') :
    a ≤ 255 ∧ m' = Memory.set m a v := by
  unfold memWrite at h
  split at h
  · cases h
  · cases h; exact ⟨by omega, rfl⟩

/-- The write port keeps the canonical form. -/
theorem memWrite_wf {m m' : Memory} {a : Nat} {v : Byte} (hm : Memory.wf m = true) (h : memWrite m a v = .ok m') :
    Memory.wf m' = true := by
  obtain ⟨ha, rfl⟩ := memWrite_ok h
  exact Memory.wf_set m a v hm (by omega)

/-- Placing bytes keeps the canonical form. -/
theorem placeBytes_wf (vs : List Byte) (m : Memory) (a : Nat) (hm : Memory.wf m = true) :
    Memory.wf (placeBytes m a vs) = true := by
  induction vs generalizing m a with
  | nil => exact hm
  | cons v vs ih =>
    simp only [placeBytes]
    split
    · exact ih _ _ (memWrite_wf hm ‹_›)
    · exact hm

/-- The Loader's writes keep the canonical form. -/
theorem writeImage_wf (vs : List Nat) (m m' : Memory) (a : Nat) (hm : Memory.wf m = true)
    (h : writeImage m a vs = .ok m') : Memory.wf m' = true := by
  induction vs generalizing m a with
  | nil => cases h; exact hm
  | cons v vs ih =>
    simp only [writeImage] at h
    split at h
    · cases h
    · exact ih _ _ (memWrite_wf hm ‹_›) h

/-- Memory after reset is canonical. -/
theorem reset_mem_wf : Memory.wf State.reset.mem = true := rfl

end Sys2Proof.Machine
end

