-- ==== Sys2Proof/Laws/State.lean ====
section
/-! SUPPORT. What each update of the state does to each field, so that no later proof unfolds a record update. -/

namespace Sys2Proof.Machine

/-! ### Reset -/

@[simp] theorem reset_regs : State.reset.regs = Vector.replicate 8 0 := rfl
@[simp] theorem reset_pc : State.reset.pc = 0 := rfl
@[simp] theorem reset_flags : State.reset.flags = ⟨false, false, false⟩ := rfl
@[simp] theorem reset_mem : State.reset.mem = [] := rfl
@[simp] theorem reset_out : State.reset.out = [] := rfl
@[simp] theorem reset_status : State.reset.status = .running := rfl
@[simp] theorem reset_cause : State.reset.cause = .none := rfl
@[simp] theorem reset_faultPc : State.reset.faultPc = 0 := rfl
@[simp] theorem reset_faultKind : State.reset.faultKind = none := rfl
@[simp] theorem reset_faultValue : State.reset.faultValue = 0 := rfl

/-! ### Fault entry -/

@[simp] theorem raise_regs (f : CoreFault) (s : State) : (raise f s).regs = s.regs := rfl
@[simp] theorem raise_pc (f : CoreFault) (s : State) : (raise f s).pc = s.pc := rfl
@[simp] theorem raise_flags (f : CoreFault) (s : State) : (raise f s).flags = s.flags := rfl
@[simp] theorem raise_mem (f : CoreFault) (s : State) : (raise f s).mem = s.mem := rfl
@[simp] theorem raise_out (f : CoreFault) (s : State) : (raise f s).out = s.out := rfl
@[simp] theorem raise_status (f : CoreFault) (s : State) : (raise f s).status = .faulted := rfl
@[simp] theorem raise_cause (f : CoreFault) (s : State) : (raise f s).cause = f.cause := rfl
@[simp] theorem raise_faultPc (f : CoreFault) (s : State) : (raise f s).faultPc = s.pc := rfl
@[simp] theorem raise_faultKind (f : CoreFault) (s : State) : (raise f s).faultKind = f.kind := rfl
@[simp] theorem raise_faultValue (f : CoreFault) (s : State) : (raise f s).faultValue = f.value := rfl

/-! ### Commit: the fields no effect writes -/

@[simp] theorem commit_mem (eff : Effect) (s : State) : (commit eff s).mem = s.mem := rfl
@[simp] theorem commit_cause (eff : Effect) (s : State) : (commit eff s).cause = s.cause := rfl
@[simp] theorem commit_faultPc (eff : Effect) (s : State) : (commit eff s).faultPc = s.faultPc := rfl
@[simp] theorem commit_faultKind (eff : Effect) (s : State) : (commit eff s).faultKind = s.faultKind := rfl
@[simp] theorem commit_faultValue (eff : Effect) (s : State) : (commit eff s).faultValue = s.faultValue := rfl

/-! ### Commit: the one field each part of an effect writes -/

@[simp] theorem commit_regs_none (f : Option Flags) (o : Option Byte) (h : Bool) (p : Nat) (s : State) :
    (commit ⟨none, f, o, h, p⟩ s).regs = s.regs := rfl
@[simp] theorem commit_regs_some (i : Fin 8) (v : Byte) (f : Option Flags) (o : Option Byte) (h : Bool) (p : Nat)
    (s : State) : (commit ⟨some (i, v), f, o, h, p⟩ s).regs = s.regs.set i.val v := rfl
@[simp] theorem commit_flags_none (r : Option (Fin 8 × Byte)) (o : Option Byte) (h : Bool) (p : Nat) (s : State) :
    (commit ⟨r, none, o, h, p⟩ s).flags = s.flags := rfl
@[simp] theorem commit_flags_some (r : Option (Fin 8 × Byte)) (f : Flags) (o : Option Byte) (h : Bool) (p : Nat)
    (s : State) : (commit ⟨r, some f, o, h, p⟩ s).flags = f := rfl
@[simp] theorem commit_out_none (r : Option (Fin 8 × Byte)) (f : Option Flags) (h : Bool) (p : Nat) (s : State) :
    (commit ⟨r, f, none, h, p⟩ s).out = s.out := rfl
@[simp] theorem commit_out_some (r : Option (Fin 8 × Byte)) (f : Option Flags) (v : Byte) (h : Bool) (p : Nat)
    (s : State) : (commit ⟨r, f, some v, h, p⟩ s).out = s.out ++ [v] := rfl
@[simp] theorem commit_status_go (r : Option (Fin 8 × Byte)) (f : Option Flags) (o : Option Byte) (p : Nat)
    (s : State) : (commit ⟨r, f, o, false, p⟩ s).status = s.status := rfl
@[simp] theorem commit_status_halt (r : Option (Fin 8 × Byte)) (f : Option Flags) (o : Option Byte) (p : Nat)
    (s : State) : (commit ⟨r, f, o, true, p⟩ s).status = .halted := rfl
@[simp] theorem commit_pc_go (r : Option (Fin 8 × Byte)) (f : Option Flags) (o : Option Byte) (p : Nat)
    (s : State) : (commit ⟨r, f, o, false, p⟩ s).pc = p := rfl
@[simp] theorem commit_pc_halt (r : Option (Fin 8 × Byte)) (f : Option Flags) (o : Option Byte) (p : Nat)
    (s : State) : (commit ⟨r, f, o, true, p⟩ s).pc = s.pc := rfl

/-! ### Registers -/

@[simp] theorem setReg_pc (s : State) (i : Fin 8) (v : Byte) : (setReg s i v).pc = s.pc := rfl
@[simp] theorem setReg_flags (s : State) (i : Fin 8) (v : Byte) : (setReg s i v).flags = s.flags := rfl
@[simp] theorem setReg_mem (s : State) (i : Fin 8) (v : Byte) : (setReg s i v).mem = s.mem := rfl
@[simp] theorem setReg_out (s : State) (i : Fin 8) (v : Byte) : (setReg s i v).out = s.out := rfl
@[simp] theorem setReg_status (s : State) (i : Fin 8) (v : Byte) : (setReg s i v).status = s.status := rfl

/-- A register write is seen by a read of that register and by no other (10_state.md rule R22). -/
@[simp] theorem getReg_setReg (s : State) (i j : Fin 8) (v : Byte) :
    getReg (setReg s i v) j = if j = i then v else getReg s j := by
  unfold getReg setReg
  by_cases h : j = i
  · subst h; simp
  · have h' : i.val ≠ j.val := fun e => h (Fin.ext e.symm)
    simp [h, h']

end Sys2Proof.Machine
end

