-- ==== Sys2Proof/Laws/Ops.lean ====
section
/-! SUPPORT. One lemma per shared operation: everything it can do. -/

namespace Sys2Proof.Machine

/-! ### The index check -/

theorem checkIndex_ok {b : Byte} (h : b.toNat < 8) : checkIndex b = .ok ⟨b.toNat, h⟩ := by
  simp [checkIndex, h]

theorem checkIndex_error {b : Byte} (h : 8 ≤ b.toNat) : checkIndex b = .error (.outOfRangeRegister b) := by
  have : ¬ b.toNat < 8 := by omega
  simp [checkIndex, this]

/-! ### The ports of the register file -/

theorem regReadPort_ok {b : Byte} (h : b.toNat < 8) (s : State) : regReadPort s b = .ok (getReg s ⟨b.toNat, h⟩) := by
  simp [regReadPort, checkIndex_ok h]

theorem regReadPort_error {b : Byte} (h : 8 ≤ b.toNat) (s : State) :
    regReadPort s b = .error (.outOfRangeRegister b) := by
  simp [regReadPort, checkIndex_error h]

theorem regWritePort_ok {b : Byte} (h : b.toNat < 8) (v : Byte) :
    regWritePort true b v = .ok (some (⟨b.toNat, h⟩, v)) := by
  simp [regWritePort, checkIndex_ok h]

theorem regWritePort_error {b : Byte} (h : 8 ≤ b.toNat) (v : Byte) :
    regWritePort true b v = .error (.outOfRangeRegister b) := by
  simp [regWritePort, checkIndex_error h]

@[simp] theorem regWritePort_off (b v : Byte) : regWritePort false b v = .ok none := rfl

/-! ### The operand forms -/

theorem withReg_ok {r : Byte} (h : r.toNat < 8) (s : State) (k : Fin 8 → Except CoreFault Effect) :
    withReg r s k = complete s (k ⟨r.toNat, h⟩) := by
  simp [withReg, checkIndex_ok h]

theorem withReg_error {r : Byte} (h : 8 ≤ r.toNat) (s : State) (k : Fin 8 → Except CoreFault Effect) :
    withReg r s k = .next (raise (.outOfRangeRegister r) s) := by
  simp [withReg, checkIndex_error h, complete]

theorem withRegs_ok {ra rb : Byte} (ha : ra.toNat < 8) (hb : rb.toNat < 8) (s : State)
    (k : Fin 8 → Fin 8 → Except CoreFault Effect) :
    withRegs ra rb s k = complete s (k ⟨ra.toNat, ha⟩ ⟨rb.toNat, hb⟩) := by
  simp [withRegs, checkIndex_ok ha, checkIndex_ok hb]

theorem withRegs_error_first {ra : Byte} (ha : 8 ≤ ra.toNat) (rb : Byte) (s : State)
    (k : Fin 8 → Fin 8 → Except CoreFault Effect) :
    withRegs ra rb s k = .next (raise (.outOfRangeRegister ra) s) := by
  simp [withRegs, checkIndex_error ha, complete]

theorem withRegs_error_second {ra rb : Byte} (ha : ra.toNat < 8) (hb : 8 ≤ rb.toNat) (s : State)
    (k : Fin 8 → Fin 8 → Except CoreFault Effect) :
    withRegs ra rb s k = .next (raise (.outOfRangeRegister rb) s) := by
  simp [withRegs, checkIndex_ok ha, checkIndex_error hb, complete]

/-- Everything a one-register form can do. -/
theorem withReg_cases (r : Byte) (s : State) (k : Fin 8 → Except CoreFault Effect) :
    (∃ h : r.toNat < 8, withReg r s k = complete s (k ⟨r.toNat, h⟩)) ∨
    (8 ≤ r.toNat ∧ withReg r s k = .next (raise (.outOfRangeRegister r) s)) := by
  by_cases h : r.toNat < 8
  · exact .inl ⟨h, withReg_ok h s k⟩
  · exact .inr ⟨by omega, withReg_error (by omega) s k⟩

/-- Everything a two-register form can do. -/
theorem withRegs_cases (ra rb : Byte) (s : State) (k : Fin 8 → Fin 8 → Except CoreFault Effect) :
    (∃ (ha : ra.toNat < 8) (hb : rb.toNat < 8),
      withRegs ra rb s k = complete s (k ⟨ra.toNat, ha⟩ ⟨rb.toNat, hb⟩)) ∨
    (8 ≤ ra.toNat ∧ withRegs ra rb s k = .next (raise (.outOfRangeRegister ra) s)) ∨
    (ra.toNat < 8 ∧ 8 ≤ rb.toNat ∧ withRegs ra rb s k = .next (raise (.outOfRangeRegister rb) s)) := by
  by_cases ha : ra.toNat < 8
  · by_cases hb : rb.toNat < 8
    · exact .inl ⟨ha, hb, withRegs_ok ha hb s k⟩
    · exact .inr (.inr ⟨ha, by omega, withRegs_error_second ha (by omega) s k⟩)
  · exact .inr (.inl ⟨by omega, withRegs_error_first (by omega) rb s k⟩)

/-! ### The ALU -/

/-- Only MOD by zero raises in class ALU (44_alu.md rule R180). -/
theorem aluEffect_cases (op : AluOp) (i : Fin 8) (a b : Byte) (p : Nat) :
    (op = .mod ∧ b = 0 ∧ aluEffect op i a b p = .error .divideByZero) ∨
    (¬(op = .mod ∧ b = 0) ∧
      aluEffect op i a b p = .ok { regWrite := some (i, aluResult op a b), pcNext := p }) := by
  by_cases h : op = .mod ∧ b = 0
  · exact .inl ⟨h.1, h.2, by simp [aluEffect, aluDiv0, h.1, h.2]⟩
  · refine .inr ⟨h, ?_⟩
    have : aluDiv0 op b = false := by
      simp only [aluDiv0, Bool.and_eq_false_iff, decide_eq_false_iff_not]
      by_cases h1 : op = .mod
      · exact .inr (fun h2 => h ⟨h1, h2⟩)
      · exact .inl h1
    simp [aluEffect, this]

/-- With the machine's `SHIFT_AMOUNT_SOURCE` a shift is an ALU instruction of format F2RR (30_encoding.md rule R77). -/
theorem shiftInstr_default (op : AluOp) (ra rb : Byte) (s : State) :
    shiftInstr shiftAmountSource op ra rb s = aluInstr op ra rb s := rfl

/-- A handler's effect is committed or its fault taken: there is always a next state. -/
theorem complete_next (s : State) (r : Except CoreFault Effect) :
    (∃ f, r = .error f ∧ complete s r = .next (raise f s)) ∨
    (∃ eff, r = .ok eff ∧ complete s r = .next (commit eff s)) := by
  cases r with
  | error f => exact .inl ⟨f, rfl, rfl⟩
  | ok eff => exact .inr ⟨eff, rfl, rfl⟩

end Sys2Proof.Machine
end

