-- ==== Sys2Proof/Laws/PerInstr.lean ====
section
/-! SUPPORT. Per-instruction facts, one lemma per constructor of Instr. -/

namespace Sys2Proof.Laws.Reassembles

/-- An instruction is its mnemonic and its operand bytes, and as many bytes as its mnemonic takes: nothing of it is lost
between the decoded view and the bytes (30_encoding.md rule R75). -/
def Statement (i : Instr) : Prop :=
  i.operands.length = i.mnemonic.operandCount ∧
  i.mnemonic.assemble (i.operands.getD 0 0) (i.operands.getD 1 0) = i

theorem halt : Statement .halt := ⟨rfl, rfl⟩
theorem ldi (r imm : Byte) : Statement (.ldi r imm) := ⟨rfl, rfl⟩
theorem prn (r : Byte) : Statement (.prn r) := ⟨rfl, rfl⟩
theorem jmp (r : Byte) : Statement (.jmp r) := ⟨rfl, rfl⟩
theorem jeq (r : Byte) : Statement (.jeq r) := ⟨rfl, rfl⟩
theorem jne (r : Byte) : Statement (.jne r) := ⟨rfl, rfl⟩
theorem cmp (ra rb : Byte) : Statement (.cmp ra rb) := ⟨rfl, rfl⟩
theorem and (ra rb : Byte) : Statement (.and ra rb) := ⟨rfl, rfl⟩
theorem or (ra rb : Byte) : Statement (.or ra rb) := ⟨rfl, rfl⟩
theorem not (r : Byte) : Statement (.not r) := ⟨rfl, rfl⟩
theorem shl (ra rb : Byte) : Statement (.shl ra rb) := ⟨rfl, rfl⟩
theorem shr (ra rb : Byte) : Statement (.shr ra rb) := ⟨rfl, rfl⟩
theorem mod (ra rb : Byte) : Statement (.mod ra rb) := ⟨rfl, rfl⟩
theorem xor (ra rb : Byte) : Statement (.xor ra rb) := ⟨rfl, rfl⟩

end Sys2Proof.Laws.Reassembles
end

