-- ==== Sys2Proof/Laws/Step.lean ====
section
/-! SUPPORT. What fetch, exec and step can do, said once. -/

namespace Sys2Proof.Machine

open Config (OpcodeMap)

/-- Everything an instruction can do: the fault it takes, or the effect it commits, and what that effect may be. -/
theorem exec_cases (i : Instr) (s : State) :
    (∃ f, ((∃ b, f = .outOfRangeRegister b ∧ 8 ≤ b.toNat) ∨ (f = .divideByZero ∧ ∃ ra rb, i = .mod ra rb)) ∧
      exec i s = .next (raise f s)) ∨
    (i = .halt ∧ exec i s = .next (commit { halt := true, pcNext := s.pc } s)) ∨
    (∃ k v p, i ≠ .halt ∧ (∀ ra rb, i ≠ .cmp ra rb) ∧ (∀ r, i ≠ .prn r) ∧ (∀ r, i ≠ .jmp r) ∧ (∀ r, i ≠ .jeq r) ∧
      (∀ r, i ≠ .jne r) ∧ p = seqPc s i.mnemonic.operandCount ∧
      exec i s = .next (commit { regWrite := some (k, v), pcNext := p } s)) ∨
    (∃ ra rb, ∃ (ha : ra.toNat < 8) (hb : rb.toNat < 8), i = .cmp ra rb ∧
      exec i s = .next (commit
        { flagsWrite := some (compareFlags (getReg s ⟨ra.toNat, ha⟩) (getReg s ⟨rb.toNat, hb⟩))
          pcNext := seqPc s 2 } s)) ∨
    (∃ r, ∃ h : r.toNat < 8, i = .prn r ∧
      exec i s = .next (commit { out := some (getReg s ⟨r.toNat, h⟩), pcNext := seqPc s 1 } s)) ∨
    (∃ c r, ∃ h : r.toNat < 8, ((c = .always ∧ i = .jmp r) ∨ (c = .eq ∧ i = .jeq r) ∨ (c = .ne ∧ i = .jne r)) ∧
      exec i s = .next (commit { pcNext := jumpMux c s (getReg s ⟨r.toNat, h⟩) 1 } s)) := by
  have alu : ∀ op ra rb, (∃ b : Byte, 8 ≤ b.toNat ∧ aluInstr op ra rb s = .next (raise (.outOfRangeRegister b) s)) ∨
      (op = .mod ∧ aluInstr op ra rb s = .next (raise .divideByZero s)) ∨
      ∃ k v, aluInstr op ra rb s = .next (commit { regWrite := some (k, v), pcNext := seqPc s 2 } s) := by
    intro op ra rb
    rcases withRegs_cases ra rb s (fun i j => aluEffect op i (getReg s i) (getReg s j) (seqPc s 2)) with
      ⟨ha, hb, h⟩ | ⟨hr, h⟩ | ⟨-, hr, h⟩
    · rcases aluEffect_cases op ⟨ra.toNat, ha⟩ (getReg s ⟨ra.toNat, ha⟩) (getReg s ⟨rb.toNat, hb⟩) (seqPc s 2) with
        ⟨hop, -, h'⟩ | ⟨-, h'⟩
      · exact .inr (.inl ⟨hop, by rw [aluInstr, h, h']; rfl⟩)
      · exact .inr (.inr ⟨_, _, by rw [aluInstr, h, h']; rfl⟩)
    · exact .inl ⟨ra, hr, h⟩
    · exact .inl ⟨rb, hr, h⟩
  cases i with
  | halt => exact .inr (.inl ⟨rfl, rfl⟩)
  | ldi r imm =>
    rcases withReg_cases r s (fun i => .ok { regWrite := some (i, imm), pcNext := seqPc s 2 }) with ⟨h, e⟩ | ⟨hr, e⟩
    · exact .inr (.inr (.inl ⟨_, _, _, by simp, by simp, by simp, by simp, by simp, by simp, rfl, e⟩))
    · exact .inl ⟨_, .inl ⟨_, rfl, hr⟩, e⟩
  | prn r =>
    rcases withReg_cases r s (fun i => .ok { out := some (getReg s i), pcNext := seqPc s 1 }) with ⟨h, e⟩ | ⟨hr, e⟩
    · exact .inr (.inr (.inr (.inr (.inl ⟨r, h, rfl, e⟩))))
    · exact .inl ⟨_, .inl ⟨_, rfl, hr⟩, e⟩
  | jmp r =>
    rcases withReg_cases r s (fun i => .ok { pcNext := jumpMux .always s (getReg s i) 1 }) with ⟨h, e⟩ | ⟨hr, e⟩
    · exact .inr (.inr (.inr (.inr (.inr ⟨_, r, h, .inl ⟨rfl, rfl⟩, e⟩))))
    · exact .inl ⟨_, .inl ⟨_, rfl, hr⟩, e⟩
  | jeq r =>
    rcases withReg_cases r s (fun i => .ok { pcNext := jumpMux .eq s (getReg s i) 1 }) with ⟨h, e⟩ | ⟨hr, e⟩
    · exact .inr (.inr (.inr (.inr (.inr ⟨_, r, h, .inr (.inl ⟨rfl, rfl⟩), e⟩))))
    · exact .inl ⟨_, .inl ⟨_, rfl, hr⟩, e⟩
  | jne r =>
    rcases withReg_cases r s (fun i => .ok { pcNext := jumpMux .ne s (getReg s i) 1 }) with ⟨h, e⟩ | ⟨hr, e⟩
    · exact .inr (.inr (.inr (.inr (.inr ⟨_, r, h, .inr (.inr ⟨rfl, rfl⟩), e⟩))))
    · exact .inl ⟨_, .inl ⟨_, rfl, hr⟩, e⟩
  | cmp ra rb =>
    rcases withRegs_cases ra rb s (fun i j =>
      .ok { flagsWrite := some (compareFlags (getReg s i) (getReg s j)), pcNext := seqPc s 2 }) with
      ⟨ha, hb, e⟩ | ⟨hr, e⟩ | ⟨-, hr, e⟩
    · exact .inr (.inr (.inr (.inl ⟨ra, rb, ha, hb, rfl, e⟩)))
    · exact .inl ⟨_, .inl ⟨_, rfl, hr⟩, e⟩
    · exact .inl ⟨_, .inl ⟨_, rfl, hr⟩, e⟩
  | not r =>
    rcases withReg_cases r s (fun i => aluEffect .not i (getReg s i) 0 (seqPc s 1)) with ⟨h, e⟩ | ⟨hr, e⟩
    · exact .inr (.inr (.inl ⟨_, _, _, by simp, by simp, by simp, by simp, by simp, by simp, rfl, e⟩))
    · exact .inl ⟨_, .inl ⟨_, rfl, hr⟩, e⟩
  | and ra rb =>
    rcases alu .and ra rb with ⟨b, hr, h⟩ | ⟨hop, h⟩ | ⟨_, _, h⟩
    · exact .inl ⟨_, .inl ⟨b, rfl, hr⟩, h⟩
    · cases hop
    · exact .inr (.inr (.inl ⟨_, _, _, by simp, by simp, by simp, by simp, by simp, by simp, rfl, h⟩))
  | or ra rb =>
    rcases alu .or ra rb with ⟨b, hr, h⟩ | ⟨hop, h⟩ | ⟨_, _, h⟩
    · exact .inl ⟨_, .inl ⟨b, rfl, hr⟩, h⟩
    · cases hop
    · exact .inr (.inr (.inl ⟨_, _, _, by simp, by simp, by simp, by simp, by simp, by simp, rfl, h⟩))
  | shl ra rb =>
    rcases alu .shl ra rb with ⟨b, hr, h⟩ | ⟨hop, h⟩ | ⟨_, _, h⟩
    · exact .inl ⟨_, .inl ⟨b, rfl, hr⟩, h⟩
    · cases hop
    · exact .inr (.inr (.inl ⟨_, _, _, by simp, by simp, by simp, by simp, by simp, by simp, rfl, h⟩))
  | shr ra rb =>
    rcases alu .shr ra rb with ⟨b, hr, h⟩ | ⟨hop, h⟩ | ⟨_, _, h⟩
    · exact .inl ⟨_, .inl ⟨b, rfl, hr⟩, h⟩
    · cases hop
    · exact .inr (.inr (.inl ⟨_, _, _, by simp, by simp, by simp, by simp, by simp, by simp, rfl, h⟩))
  | mod ra rb =>
    rcases alu .mod ra rb with ⟨b, hr, h⟩ | ⟨hop, h⟩ | ⟨_, _, h⟩
    · exact .inl ⟨_, .inl ⟨b, rfl, hr⟩, h⟩
    · exact .inl ⟨_, .inr ⟨rfl, _, _, rfl⟩, h⟩
    · exact .inr (.inr (.inl ⟨_, _, _, by simp, by simp, by simp, by simp, by simp, by simp, rfl, h⟩))
  | xor ra rb =>
    rcases alu .xor ra rb with ⟨b, hr, h⟩ | ⟨hop, h⟩ | ⟨_, _, h⟩
    · exact .inl ⟨_, .inl ⟨b, rfl, hr⟩, h⟩
    · cases hop
    · exact .inr (.inr (.inl ⟨_, _, _, by simp, by simp, by simp, by simp, by simp, by simp, rfl, h⟩))

/-- Everything a step that answers a next state can have done. -/
theorem step_cases {s t : State} (h : step s = .next t) :
    s.status = .running ∧
    ((∃ f, fetch s = .error f ∧ t = raise f s) ∨ (∃ i, fetch s = .ok i ∧ exec i s = .next t)) := by
  unfold step at h
  split at h
  · cases h
  · cases h
  · refine ⟨‹_›, ?_⟩
    split at h
    · cases h; exact .inl ⟨_, ‹_›, rfl⟩
    · exact .inr ⟨_, ‹_›, h⟩

/-- A step of a running machine whose fetch fails takes that fault. -/
theorem step_of_fetch_error {s : State} {f : CoreFault} (hs : s.status = .running) (hf : fetch s = .error f) :
    step s = .next (raise f s) := by
  unfold step; rw [hs]; simp [hf]

/-- A step of a running machine runs what it fetched. -/
theorem step_of_fetch_ok {s : State} {i : Instr} (hs : s.status = .running) (hf : fetch s = .ok i) :
    step s = exec i s := by
  unfold step; rw [hs]; simp [hf]

/-! ### Fetch -/

/-- Everything a fetch can do, in the order of its checks (60_exceptions.md rule R226, items 1 to 3). -/
theorem fetchWith_cases (map : OpcodeMap) (s : State) :
    (255 < s.pc ∧ fetchWith map s = .error (.outOfRangeAddress s.pc)) ∨
    (s.pc ≤ 255 ∧ decodeOpcodeWith map (Memory.get s.mem s.pc) = none ∧
      fetchWith map s = .error (.unknownOpcode (Memory.get s.mem s.pc))) ∨
    (∃ m, s.pc ≤ 255 ∧ decodeOpcodeWith map (Memory.get s.mem s.pc) = some m ∧
      ((1 ≤ operandCount (Memory.get s.mem s.pc) ∧ 255 < s.pc + 1 ∧
          fetchWith map s = .error (.outOfRangeAddress (s.pc + 1))) ∨
       (2 ≤ operandCount (Memory.get s.mem s.pc) ∧ s.pc + 1 ≤ 255 ∧ 255 < s.pc + 2 ∧
          fetchWith map s = .error (.outOfRangeAddress (s.pc + 2))) ∨
       (s.pc + min 2 (operandCount (Memory.get s.mem s.pc)) ≤ 255 ∧
          fetchWith map s = .ok (m.assemble
            (if 1 ≤ operandCount (Memory.get s.mem s.pc) then Memory.get s.mem (s.pc + 1) else 0)
            (if 2 ≤ operandCount (Memory.get s.mem s.pc) then Memory.get s.mem (s.pc + 2) else 0))))) := by
  rcases memRead_spec s.mem s.pc with ⟨hp, h0⟩ | ⟨hp, h0⟩
  swap
  · exact .inl ⟨hp, by simp [fetchWith, h0]⟩
  cases hd : decodeOpcodeWith map (Memory.get s.mem s.pc) with
  | none => exact .inr (.inl ⟨hp, rfl, by simp [fetchWith, h0, hd]⟩)
  | some m =>
    refine .inr (.inr ⟨m, hp, rfl, ?_⟩)
    by_cases h1 : 1 ≤ operandCount (Memory.get s.mem s.pc)
    · rcases memRead_spec s.mem (s.pc + 1) with ⟨hp1, e1⟩ | ⟨hp1, e1⟩
      · by_cases h2 : 2 ≤ operandCount (Memory.get s.mem s.pc)
        · rcases memRead_spec s.mem (s.pc + 2) with ⟨hp2, e2⟩ | ⟨hp2, e2⟩
          · exact .inr (.inr ⟨by omega, by simp [fetchWith, fetchOperand, h0, hd, h1, h2, e1, e2]⟩)
          · exact .inr (.inl ⟨h2, hp1, hp2, by simp [fetchWith, fetchOperand, h0, hd, h1, h2, e1, e2]⟩)
        · exact .inr (.inr ⟨by omega, by simp [fetchWith, fetchOperand, h0, hd, h1, h2, e1]⟩)
      · exact .inl ⟨h1, hp1, by simp [fetchWith, fetchOperand, h0, hd, h1, e1]⟩
    · have h2 : ¬ 2 ≤ operandCount (Memory.get s.mem s.pc) := by omega
      exact .inr (.inr ⟨by omega, by simp [fetchWith, fetchOperand, h0, hd, h1, h2]⟩)

end Sys2Proof.Machine
end

