-- ==== Sys2Proof/Tests/Slice0.lean ====
section
/-! SUPPORT. Tests of the model on fixed values, every expected result taken from spec/95_test_vectors.md or from the
encoding tables of spec/30_encoding.md, and a witness for the hypotheses of each obligation that has any. -/

namespace Sys2Proof.Tests

open Sys2Proof.Machine

/-- The state of the vectors: reset, the bytes at `p`, and the pc there. -/
def sample (bytes : List Byte) (p : Nat) : State :=
  { State.reset with mem := placeBytes [] p bytes, pc := p }

/-- `sample` with two register values in R0 and R1, as the vectors of section 2.4 and 2.5 have it. -/
def sampleAB (bytes : List Byte) (p : Nat) (a b : Byte) : State :=
  { sample bytes p with regs := #v[a, b, 0, 0, 0, 0, 0, 0] }

/-- `sample` with a value in R7, the highest register. -/
def sample7 (bytes : List Byte) (p : Nat) (v : Byte) : State :=
  { sample bytes p with regs := #v[0, 0, 0, 0, 0, 0, 0, v] }

/-- The next state, where there is one. -/
def nextOf : Host.Outcome State Fault Refusal → Option State
  | .next t => some t
  | .fault _ => none
  | .refused _ => none

/-- R0 after one step. -/
def r0After (s : State) : Option Byte := (nextOf (step s)).map (fun t => t.regs[0])

/-- The flags after one step, in the order E G L. -/
def flagsAfter (s : State) : Option (Bool × Bool × Bool) :=
  (nextOf (step s)).map (fun t => (t.flags.e, t.flags.g, t.flags.l))

/-- The pc after one step. -/
def pcAfter (s : State) : Option Nat := (nextOf (step s)).map (fun t => t.pc)

/-- The fault record after one step: cause, kind, value, fault_pc. -/
def faultAfter (s : State) : Option (Cause × Option FaultKind × Nat × Nat) :=
  (nextOf (step s)).map (fun t => (t.cause, t.faultKind, t.faultValue, t.faultPc))

/-! ### WellFormed refuses an index above 7 in each place the check looks -/

theorem test_wellFormed_accepts_seven : (Instr.cmp 7 7).wellFormed = true := by decide
theorem test_wellFormed_refuses_first_of_one : (Instr.prn 8).wellFormed = false := by decide
theorem test_wellFormed_refuses_ldi_register : (Instr.ldi 8 0).wellFormed = false := by decide
theorem test_wellFormed_ignores_ldi_immediate : (Instr.ldi 0 255).wellFormed = true := by decide
theorem test_wellFormed_refuses_first_of_two : (Instr.mod 9 0).wellFormed = false := by decide
theorem test_wellFormed_refuses_second_of_two : (Instr.mod 0 200).wellFormed = false := by decide

/-! ### Every constructor's word, written out from the bit patterns of 30_encoding.md section 3 -/

theorem test_decode_halt : decode [0b00000001] = .ok (.halt, []) := by rfl
theorem test_decode_ldi : decode [0b10000010, 0b00000000, 0b00001000] = .ok (.ldi 0 8, []) := by rfl
theorem test_decode_prn : decode [0b01000111, 0b00000000] = .ok (.prn 0, []) := by rfl
theorem test_decode_jmp : decode [0b01010100, 0b00000111] = .ok (.jmp 7, []) := by rfl
theorem test_decode_jeq : decode [0b01010101, 0b00000001] = .ok (.jeq 1, []) := by rfl
theorem test_decode_jne : decode [0b01010110, 0b00000011] = .ok (.jne 3, []) := by rfl
theorem test_decode_cmp : decode [0b10100111, 0b00000000, 0b00000001] = .ok (.cmp 0 1, []) := by rfl
theorem test_decode_and : decode [0b10101000, 0b00000010, 0b00000101] = .ok (.and 2 5, []) := by rfl
theorem test_decode_or : decode [0b10101010, 0b00000010, 0b00000001] = .ok (.or 2 1, []) := by rfl
theorem test_decode_not : decode [0b01101001, 0b00000010] = .ok (.not 2, []) := by rfl
theorem test_decode_shl : decode [0b10101100, 0b00000000, 0b00000001] = .ok (.shl 0 1, []) := by rfl
theorem test_decode_shr : decode [0b10101101, 0b00000110, 0b00000100] = .ok (.shr 6 4, []) := by rfl
theorem test_decode_mod : decode [0b10100100, 0b00000000, 0b00000101] = .ok (.mod 0 5, []) := by rfl
theorem test_decode_xor : decode [0b10101011, 0b11111111, 0b10000000] = .ok (.xor 255 128, []) := by rfl

/-- Section 2.1: the bytes it lists as UNKNOWN. -/
theorem test_decode_unknown :
    [0x00, 0x02, 0x11, 0x45, 0x57, 0xA0, 0xA9, 0xAE, 0xC0, 0xFF].all (fun b => decodeOpcode b = none) = true := by
  decide
theorem test_decode_truncated : decode [0x82, 0x00] = .error (.missingOperand 0x82 2) := by rfl
theorem test_decode_table_word : decodeTableWord 24 0x080082 = some (.ldi 0 8) := by rfl
theorem test_decode_table_word_short : decodeTableWord 8 0x0847 = some (.prn 0) := by rfl

/-! ### HALT, LDI, PRN (section 2.2) -/

theorem test_halt_at_255 : (nextOf (step (sample [0x01] 255))).map (fun t => (t.status, t.pc)) = some (.halted, 255) := by
  decide
theorem test_ldi_r7_255 :
    (nextOf (step (sample [0x82, 0x07, 0xFF] 0))).map (fun t => (t.regs[7], t.pc)) = some (255, 3) := by decide
theorem test_ldi_bad_register :
    faultAfter (sample [0x82, 0x08, 0x05] 0) = some (.outOfRange, some .register, 8, 0) := by decide
theorem test_prn_emits :
    (nextOf (step (sampleAB [0x47, 0x00] 3 8 0))).map (fun t => (t.out, t.pc)) = some ([8], 5) := by decide
theorem test_prn_bad_register :
    (nextOf (step (sample [0x47, 0x08] 0))).map (fun t => (t.status, t.out)) = some (.faulted, []) := by decide

/-! ### Jumps (section 2.3) -/

theorem test_jmp : pcAfter (sampleAB [0x54, 0x00] 3 0x10 0) = some 16 := by decide
theorem test_jmp_to_255 : pcAfter (sampleAB [0x54, 0x00] 0 255 0) = some 255 := by decide
theorem test_jeq_taken :
    pcAfter { sampleAB [0x55, 0x01] 9 0 0x20 with flags := ⟨true, false, false⟩ } = some 32 := by decide
theorem test_jeq_untaken_at_254 : pcAfter (sample [0x55, 0x00] 254) = some 256 := by decide
theorem test_jne_ignores_g :
    pcAfter { sampleAB [0x56, 0x01] 0 0 50 with flags := ⟨false, true, false⟩ } = some 50 := by decide
theorem test_jne_untaken :
    pcAfter { sampleAB [0x56, 0x01] 20 0 12 with flags := ⟨true, false, false⟩ } = some 22 := by decide
theorem test_jeq_untaken_still_checks_index :
    faultAfter (sample [0x55, 0x08] 0) = some (.outOfRange, some .register, 8, 0) := by decide

/-! ### CMP (section 2.4) -/

theorem test_cmp_is_unsigned : flagsAfter (sampleAB [0xA7, 0, 1] 0 0x80 0x7F) = some (false, true, false) := by decide
theorem test_cmp_overwrites :
    flagsAfter { sampleAB [0xA7, 0, 1] 0 4 4 with flags := ⟨false, true, false⟩ } = some (true, false, false) := by
  decide

/-! ### ALU (section 2.5) -/

theorem test_and : r0After (sampleAB [0xA8, 0, 1] 0 0xCA 0x0F) = some 0x0A := by decide
theorem test_or : r0After (sampleAB [0xAA, 0, 1] 0 0x12 0x34) = some 0x36 := by decide
theorem test_xor : r0After (sampleAB [0xAB, 0, 1] 0 0x12 0x34) = some 0x26 := by decide
theorem test_xor_same_register : r0After (sampleAB [0xAB, 0, 0] 0 0x5A 0) = some 0 := by decide
theorem test_not : r0After (sampleAB [0x69, 0] 0 0xAA 0) = some 0x55 := by decide
theorem test_shl_truncates : r0After (sampleAB [0xAC, 0, 1] 0 0x81 1) = some 0x02 := by decide
theorem test_shl_same_register : r0After (sampleAB [0xAC, 0, 0] 0 3 0) = some 24 := by decide
theorem test_shr_is_logical : r0After (sampleAB [0xAD, 0, 1] 0 0x80 1) = some 0x40 := by decide
theorem test_shr_by_255 : r0After (sampleAB [0xAD, 0, 1] 0 0xFF 255) = some 0 := by decide
theorem test_mod : r0After (sampleAB [0xA4, 0, 1] 0 255 16) = some 15 := by decide
theorem test_mod_by_zero :
    (nextOf (step (sampleAB [0xA4, 0, 1] 3 5 0))).map (fun t => (t.cause, t.faultPc, t.pc, t.regs[0])) =
      some (.divideByZero, 3, 3, 5) := by decide

/-! ### Faults and their priority (section 2.6) -/

theorem test_fault_zero_byte : faultAfter (sample [] 0) = some (.unknownOpcode, none, 0, 0) := by decide
theorem test_fault_pc_256 : faultAfter (sample [] 256) = some (.outOfRange, some .address, 256, 256) := by decide
theorem test_fault_operand_past_the_end :
    faultAfter (sample [0x82, 0x00] 254) = some (.outOfRange, some .address, 256, 254) := by decide
theorem test_fault_unknown_before_operand :
    faultAfter (sample [0xC3] 255) = some (.unknownOpcode, none, 0xC3, 255) := by decide
theorem test_fault_first_index_first :
    faultAfter (sample [0xA7, 9, 10] 0) = some (.outOfRange, some .register, 9, 0) := by decide
theorem test_fault_index_before_divide :
    faultAfter (sample [0xA4, 9, 0] 0) = some (.outOfRange, some .register, 9, 0) := by decide
theorem test_no_step_after_halt :
    step { State.reset with status := .halted } = .fault .stepNotEnabled := by rfl

/-! ### Memory, load, host view -/

theorem test_memory_write_zero_unlists : Memory.set [(3, 7), (5, 1)] 3 0 = [(5, 1)] := by decide
theorem test_memory_write_sorted : Memory.set [(3, 7), (5, 1)] 4 9 = [(3, 7), (4, 9), (5, 1)] := by decide
/-- Section 1.2, the image of scenario 1. -/
theorem test_boot_image :
    (nextOf (boot [0x82, 0x00, 0x08, 0x47, 0x00, 0x01])).map (fun t => (t.mem, t.pc)) =
      some ([(0, 0x82), (2, 0x08), (3, 0x47), (5, 0x01)], 0) := by decide
theorem test_load_refuses_256 : boot [256] = .refused .illegalLoadImage := by rfl
theorem test_printed_lines : printedLines { State.reset with out := [8, 255] } = ["8", "255"] := by decide

/-! ### The ports of the register file (rule R115) -/

theorem test_read_port_reports : regReadPort (sample7 [] 0 9) 8 = .error (.outOfRangeRegister 8) := by rfl
theorem test_read_port_r7 : regReadPort (sample7 [] 0 9) 7 = .ok 9 := by rfl
theorem test_write_port_reports : regWritePort true 255 1 = .error (.outOfRangeRegister 255) := by rfl

/-! ### Witnesses: states and operands that meet the hypotheses of each obligation, clause by clause -/

/-- A legal opcode map that is not the machine's: JMP and JEQ exchanged. -/
def otherMap : Config.OpcodeMap
  | .jmp => 0x55
  | .jeq => 0x54
  | m => opcodeMap m

theorem otherMap_legal : LegalOpcodeMap otherMap := by
  refine ⟨?_, rfl, rfl, rfl, ?_⟩
  · intro m m'; cases m <;> cases m' <;> decide
  · intro m; cases m <;> decide

/-- A sample that has not run meets the invariant. -/
theorem sample_inv (bytes : List Byte) (p : Nat) (hp : p ≤ 256) (hm : Memory.wf (placeBytes [] p bytes) = true) :
    StateInv (sample bytes p) := by
  refine ⟨hp, hm, (by decide : State.reset.flags.atMostOne), ?_, ?_, ?_⟩
  · intro _; exact ⟨rfl, rfl, rfl, rfl⟩
  · intro h; cases h
  · intro h; cases h

theorem witness_ResetRegistersReadZero : (7 : Byte).toNat < 8 := by decide
theorem witness_StepKeepsInvariant :
    StateInv (sample [0x82, 7, 255] 253) ∧ ∃ t, step (sample [0x82, 7, 255] 253) = .next t :=
  ⟨sample_inv _ _ (by decide) (by decide), _, rfl⟩
theorem witness_LoadWritesImageOrRefuses :
    Memory.wf State.reset.mem = true ∧ (List.replicate 256 255).length ≤ 256 ∧ (∀ v ∈ List.replicate 256 255, v ≤ 255) ∧
    256 < (List.replicate 257 0).length ∧ (∃ v ∈ [256], 255 < v) := by
  refine ⟨rfl, Nat.le_of_eq List.length_replicate, fun v hv => ?_, ?_, by simp⟩
  · exact Nat.le_of_eq (List.eq_of_mem_replicate hv)
  · rw [List.length_replicate]; omega
theorem witness_EveryRunKeepsInvariant :
    ∃ s t u, boot [0x01] = .next s ∧ run 0 s = .notEnded t ∧ run 1 s = .ended u := ⟨_, _, _, rfl, rfl, rfl⟩
theorem witness_MemoryPortsAreBoundsChecked : 255 ≤ 255 ∧ 255 < 256 := by decide
theorem witness_MemoryWriteTouchesOneCell :
    Memory.wf [(255, 1)] = true ∧ memWrite [(255, 1)] 255 0 = .ok [] ∧ memWrite [(255, 1)] 0 9 = .ok [(0, 9), (255, 1)] :=
  ⟨rfl, rfl, rfl⟩
theorem witness_CanonicalMemoryIsFixedByItsBytes :
    Memory.wf [(0, 1), (255, 1)] = true ∧ ∀ a, Memory.get [(0, 1), (255, 1)] a = Memory.get [(0, 1), (255, 1)] a :=
  ⟨rfl, fun _ => rfl⟩
theorem witness_DecodeOfEncode : LegalOpcodeMap otherMap := otherMap_legal
theorem witness_EncodeOfDecode :
    LegalOpcodeMap otherMap ∧ decodeWith otherMap [0x54, 255, 1] = .ok (.jeq 255, [1]) := ⟨otherMap_legal, rfl⟩
theorem witness_WidthIsInTheOpcodeByte : decode (0x82 :: [255, 255, 1]) = .ok (.ldi 255 255, [1]) := rfl
theorem witness_UnknownOpcodesFault :
    0xC0 ≤ (0xC0 : Byte).toNat ∧ (sample [0xC3] 255).status = .running ∧ (sample [0xC3] 255).pc ≤ 255 ∧
    decodeOpcode (Memory.get (sample [0xC3] 255).mem (sample [0xC3] 255).pc) = none := by decide
theorem witness_StepRunsDecodedInstruction :
    (sample [0xA4, 7, 7] 253).status = .running ∧ decode (fetchWindow (sample [0xA4, 7, 7] 253)) = .ok (.mod 7 7, []) :=
  ⟨rfl, rfl⟩
theorem witness_StepEnabledExactlyWhileRunning :
    State.reset.status = .running ∧ ({ State.reset with status := .halted } : State).status ≠ .running ∧
    ({ State.reset with status := .faulted } : State).status ≠ .running := by decide
theorem witness_FetchPastTheEndFaults : (sample [] 256).status = .running ∧ 255 < (sample [] 256).pc := by decide
/-- One state for each branch of the order, at its boundary. -/
theorem witness_FirstFaultIsReported :
    255 < (sample [] 256).pc ∧
    decodeOpcode (Memory.get (sample [0x02] 255).mem 255) = none ∧
    (decodeOpcode (Memory.get (sample [0x47] 255).mem 255) = some .prn ∧ 255 < 255 + 1) ∧
    (decodeOpcode (Memory.get (sample [0x82] 254).mem 254) = some .ldi ∧ 254 + 1 ≤ 255 ∧ 255 < 254 + 2) ∧
    7 < (Memory.get (sample [0xA7, 8, 0] 253).mem 254).toNat ∧
    (Memory.get (sample [0xA7, 7, 8] 253).mem 254).toNat ≤ 7 ∧ 7 < (Memory.get (sample [0xA7, 7, 8] 253).mem 255).toNat ∧
    (sample [0xA4, 7, 7] 253).regs[(7 : Byte).toNat]? = some 0 ∧
    (sample7 [0xA4, 7, 7] 253 1).regs[(7 : Byte).toNat]? ≠ some 0 := by decide
theorem witness_FaultingStepCommitsNothing :
    ∃ t, step (sample [0x82, 8, 0] 253) = .next t ∧ t.status = .faulted := ⟨_, rfl, rfl⟩
theorem witness_ExactlyThreeFaultClasses :
    (∃ t, step (sample [] 0) = .next t ∧ t.status = .faulted) ∧ Cause.divideByZero ≠ .none :=
  ⟨⟨_, rfl, rfl⟩, by decide⟩
theorem witness_MemoryIsOnlyFetched :
    (∃ t, step (sample [0x82, 7, 1] 253) = .next t) ∧ (∃ t, exec (.ldi 7 1) State.reset = .next t) ∧
    ∀ k, k ≤ 2 → Memory.get (Memory.set (sample [0x82, 7, 1] 253).mem 0 9) (253 + k) =
      Memory.get (sample [0x82, 7, 1] 253).mem (253 + k) := by
  refine ⟨⟨_, rfl⟩, ⟨_, rfl⟩, ?_⟩
  intro k hk
  rcases (by omega : k = 0 ∨ k = 1 ∨ k = 2) with rfl | rfl | rfl <;> rfl
/-- One step that changes a register, one the flags, one the output, one the status. -/
theorem witness_StepWritesOneThing :
    (∃ t, step (sample [0x82, 7, 1] 0) = .next t ∧ t.regs ≠ (sample [0x82, 7, 1] 0).regs) ∧
    (∃ t, step (sample [0xA7, 7, 7] 0) = .next t ∧ t.flags ≠ (sample [0xA7, 7, 7] 0).flags) ∧
    (∃ t, step (sample [0x47, 7] 0) = .next t ∧ t.out ≠ (sample [0x47, 7] 0).out) ∧
    (∃ t, step (sample [0x01] 0) = .next t ∧ t.status ≠ (sample [0x01] 0).status) :=
  ⟨⟨_, rfl, by decide⟩, ⟨_, rfl, by decide⟩, ⟨_, rfl, by decide⟩, ⟨_, rfl, by decide⟩⟩
theorem witness_PcAdvancesOrJumps :
    (∃ t, exec (.mod 0 7) (sample7 [] 253 3) = .next t ∧ t.status ≠ .faulted) ∧
    (∀ r, Instr.mod 0 7 ≠ .jmp r ∧ Instr.mod 0 7 ≠ .jeq r ∧ Instr.mod 0 7 ≠ .jne r) ∧ Instr.mod 0 7 ≠ .halt ∧
    (7 : Byte).toNat < 8 :=
  ⟨⟨_, rfl, by decide⟩, by simp, by simp, by decide⟩
theorem witness_OnlyCompareWritesFlags :
    (∃ t, exec (.not 7) State.reset = .next t) ∧ (∀ ra rb, Instr.not 7 ≠ .cmp ra rb) ∧
    (∃ t, step (sample [0xA7, 7, 7] 253) = .next t ∧ t.flags ≠ (sample [0xA7, 7, 7] 253).flags) ∧ (7 : Byte).toNat < 8 :=
  ⟨⟨_, rfl⟩, by simp, ⟨_, rfl, by decide⟩, by decide⟩
/-- A step of JEQ and one of JNE, and a state for each value of E. -/
theorem witness_GreaterAndLessAreUnread :
    (∃ t, step (sample [0x55, 7] 254) = .next t) ∧ (∃ t, step (sample [0x56, 7] 254) = .next t) ∧ (7 : Byte).toNat < 8 ∧
    ({ State.reset with flags := ⟨true, false, false⟩ } : State).flags.e = true ∧ State.reset.flags.e = false :=
  ⟨⟨_, rfl⟩, ⟨_, rfl⟩, by decide, rfl, rfl⟩
/-- Each of the seven answers a next state, MOD both with and without a divisor. -/
theorem witness_AluIgnoresFlags :
    (∀ i ∈ [Instr.and 7 7, .or 7 7, .not 7, .shl 7 7, .shr 7 7, .mod 7 7, .xor 7 7],
      (nextOf (exec i (sample7 [] 0 9))).isSome = true) ∧
    (nextOf (exec (.mod 7 7) (sample7 [] 0 0))).isSome = true := by decide
theorem witness_OutputIsWriteOnly :
    ∃ t, step (sample [0x47, 7] 254) = .next t ∧ t.out = (sample [0x47, 7] 254).out ++ [0] := ⟨_, rfl, rfl⟩
theorem witness_HaltStopsInPlace :
    (sample [0x01] 255).status = .running ∧ (sample [0x01] 255).pc ≤ 255 ∧
    Memory.get (sample [0x01] 255).mem (sample [0x01] 255).pc = 0x01 := by decide
theorem witness_HaltIsTheOnlySuccess :
    (∃ t, step (sample [0x01] 255) = .next t ∧ t.status = .halted) ∧
    ∃ t, step (sample [0x47, 0] 0) = .next t ∧ t.status ≠ .halted :=
  ⟨⟨_, rfl, rfl⟩, ⟨_, rfl, by decide⟩⟩
theorem witness_LdiLoadsImmediate :
    (7 : Byte).toNat < 8 ∧ 7 < (8 : Byte).toNat ∧
    ((sample [0x82, 7, 255] 253).pc ≤ 253 ∧ Memory.get (sample [0x82, 7, 255] 253).mem 253 = 0x82) ∧
    ((sample [0x82, 7] 254).pc = 254 ∧ Memory.get (sample [0x82, 7] 254).mem 254 = 0x82) ∧
    ((sample [0x82] 255).pc = 255 ∧ Memory.get (sample [0x82] 255).mem 255 = 0x82) ∧
    (sample [0x82] 255).status = .running := by decide
theorem witness_PrnEmitsRegister :
    (7 : Byte).toNat < 8 ∧ 7 < (8 : Byte).toNat ∧
    ((sample [0x47, 7] 254).pc ≤ 254 ∧ Memory.get (sample [0x47, 7] 254).mem 254 = 0x47) ∧
    ((sample [0x47] 255).pc = 255 ∧ Memory.get (sample [0x47] 255).mem 255 = 0x47) ∧
    (sample [0x47] 255).status = .running := by decide
theorem witness_JmpOverwritesPc :
    (7 : Byte).toNat < 8 ∧
    ((sample [0x54, 7] 254).pc ≤ 254 ∧ Memory.get (sample [0x54, 7] 254).mem 254 = 0x54) ∧
    ((sample [0x54] 255).pc = 255 ∧ Memory.get (sample [0x54] 255).mem 255 = 0x54) ∧
    (sample [0x54] 255).status = .running := by decide
theorem witness_ConditionalJumpsReadEqual :
    (7 : Byte).toNat < 8 ∧ (sample [0x55, 7] 254).pc ≤ 254 ∧ Memory.get (sample [0x55, 7] 254).mem 254 = 0x55 ∧
    Memory.get (sample [0x56, 7] 254).mem 254 = 0x56 ∧ (sample [0x56, 7] 254).status = .running := by decide
theorem witness_ExactlyOneBranchIsTaken : (7 : Byte).toNat < 8 := by decide
theorem witness_CmpComparesUnsigned :
    (7 : Byte).toNat < 8 ∧ (sample [0xA7, 7, 7] 253).pc ≤ 253 ∧ Memory.get (sample [0xA7, 7, 7] 253).mem 253 = 0xA7 ∧
    (sample [0xA7, 7, 7] 253).status = .running := by decide
theorem witness_CompareSetsExactlyOneFlag : (7 : Byte).toNat < 8 ∧ (0 : Byte).toNat < 8 := by decide
theorem witness_BitwiseLogicIsBitByBit :
    (7 : Byte).toNat < 8 ∧ (sample [0xA8, 7, 7] 253).pc ≤ 253 ∧ Memory.get (sample [0xA8, 7, 7] 253).mem 253 = 0xA8 ∧
    Memory.get (sample [0xAA, 7, 7] 253).mem 253 = 0xAA ∧ Memory.get (sample [0xAB, 7, 7] 253).mem 253 = 0xAB ∧
    (sample [0xA8, 7, 7] 253).status = .running := by decide
theorem witness_NotComplements :
    (7 : Byte).toNat < 8 ∧ (sample [0x69, 7] 254).pc ≤ 254 ∧ Memory.get (sample [0x69, 7] 254).mem 254 = 0x69 ∧
    (sample [0x69, 7] 254).status = .running := by decide
theorem witness_ShiftsAreLogicalAndUnmasked :
    (7 : Byte).toNat < 8 ∧ 8 ≤ ((sample7 [] 0 8).regs[(7 : Byte).toNat]'(by decide)).toNat ∧
    (sample [0xAC, 7, 7] 253).pc ≤ 253 ∧ Memory.get (sample [0xAC, 7, 7] 253).mem 253 = 0xAC ∧
    Memory.get (sample [0xAD, 7, 7] 253).mem 253 = 0xAD ∧ (sample [0xAD, 7, 7] 253).status = .running := by decide
theorem witness_ImmediateShiftAmountVariant : (7 : Byte).toNat < 8 := by decide
theorem witness_ModRemainderOrDivideByZero :
    (7 : Byte).toNat < 8 ∧ (sample7 [] 0 1).regs[(7 : Byte).toNat]'(by decide) ≠ 0 ∧
    (sample7 [] 0 0).regs[(7 : Byte).toNat]'(by decide) = 0 ∧
    (sample [0xA4, 7, 7] 253).pc ≤ 253 ∧ Memory.get (sample [0xA4, 7, 7] 253).mem 253 = 0xA4 ∧
    (sample [0xA4, 7, 7] 253).status = .running := by decide
theorem witness_IllegalIndexFaults :
    (Instr.mod 8 9).regOperands.find? (fun b => decide (7 < b.toNat)) = some 8 ∧
    (Instr.mod 7 8).regOperands.find? (fun b => decide (7 < b.toNat)) = some 8 ∧
    (Instr.jeq 255).regOperands.find? (fun b => decide (7 < b.toNat)) = some 255 := by decide
theorem witness_AluResultsAsNumbers : (1 : Byte) ≠ 0 ∧ 0 < 8 ∧ 7 < 8 := by decide
/-- Each instruction of the group answers a next state, with a legal destination and with an illegal one. -/
theorem witness_FrameOfRegisterWriters :
    (∀ i ∈ [Instr.ldi 7 1, .and 7 1, .or 7 1, .not 7, .shl 7 1, .shr 7 1, .mod 7 1, .xor 7 1],
      (nextOf (exec i (sampleAB [] 0 9 2))).any (fun t => decide (t.status ≠ .faulted)) = true) ∧
    (∀ i ∈ [Instr.ldi 8 1, .and 8 1, .or 8 1, .not 8, .shl 8 1, .shr 8 1, .mod 8 1, .xor 8 1],
      (nextOf (exec i (sampleAB [] 0 9 2))).any (fun t => decide (t.status = .faulted)) = true) := by decide
theorem witness_FrameOfCmpPrnHalt :
    ∀ i ∈ [Instr.cmp 7 0, .prn 7, .halt],
      (nextOf (exec i State.reset)).any (fun t => decide (t.status ≠ .faulted)) = true := by decide
theorem witness_FrameOfJumps :
    ∀ i ∈ [Instr.jmp 7, .jeq 7, .jne 7],
      (nextOf (exec i State.reset)).any (fun t => decide (t.status ≠ .faulted)) = true := by decide
theorem witness_LoadThenPrintEmits :
    (sample [0x82, 7, 255, 0x47, 7] 251).status = .running ∧ (sample [0x82, 7, 255, 0x47, 7] 251).pc ≤ 251 ∧
    (7 : Byte).toNat < 8 ∧ Memory.get (sample [0x82, 7, 255, 0x47, 7] 251).mem 251 = 0x82 ∧
    Memory.get (sample [0x82, 7, 255, 0x47, 7] 251).mem 252 = 7 ∧
    Memory.get (sample [0x82, 7, 255, 0x47, 7] 251).mem 253 = 255 ∧
    Memory.get (sample [0x82, 7, 255, 0x47, 7] 251).mem 254 = 0x47 ∧
    Memory.get (sample [0x82, 7, 255, 0x47, 7] 251).mem 255 = 7 := by decide
theorem witness_BranchSeesThePrecedingCompare :
    (7 : Byte).toNat < 8 ∧ (sample [0xA7, 7, 7, 0x55, 7] 251).status = .running ∧
    (sample [0xA7, 7, 7, 0x55, 7] 251).pc ≤ 251 ∧ Memory.get (sample [0xA7, 7, 7, 0x55, 7] 251).mem 251 = 0xA7 ∧
    Memory.get (sample [0xA7, 7, 7, 0x55, 7] 251).mem 252 = 7 ∧
    Memory.get (sample [0xA7, 7, 7, 0x55, 7] 251).mem 253 = 7 ∧
    Memory.get (sample [0xA7, 7, 7, 0x55, 7] 251).mem 254 = 0x55 ∧
    Memory.get (sample [0xA7, 7, 7, 0x56, 7] 251).mem 254 = 0x56 ∧
    Memory.get (sample [0xA7, 7, 7, 0x55, 7] 251).mem 255 = 7 := by decide
theorem witness_JumpToItselfNeverEnds :
    (7 : Byte).toNat < 8 ∧ (sample7 [0x54, 7] 254 254).status = .running ∧ (sample7 [0x54, 7] 254 254).pc ≤ 254 ∧
    Memory.get (sample7 [0x54, 7] 254 254).mem 254 = 0x54 ∧ Memory.get (sample7 [0x54, 7] 254 254).mem 255 = 7 ∧
    ((sample7 [0x54, 7] 254 254).regs[(7 : Byte).toNat]'(by decide)).toNat = 254 := by decide
theorem witness_RunResultsAreSound :
    (∃ t, run 1 (sample [0x01] 0) = .ended t) ∧ (∃ t, run 2 (sample [0x01] 0) = .ended t) ∧
    ∃ t, run 0 (sample [0x01] 0) = .notEnded t := ⟨⟨_, rfl⟩, ⟨_, rfl⟩, ⟨_, rfl⟩⟩
/-- The highest index and the first above it on each port, and a check that passes and a divisor for MOD. -/
theorem witness_RegisterPortsReportOutOfRange :
    (7 : Byte).toNat < 8 ∧ 7 < (8 : Byte).toNat ∧
    checkSlots 7 7 Mnemonic.mod.controlWord.regslots = .ok () ∧
    checkSlots 7 255 Mnemonic.ldi.controlWord.regslots = .ok () ∧
    checkSlots 255 255 Mnemonic.halt.controlWord.regslots = .ok () := by decide
theorem witness_HostCodes :
    State.reset.status = .running ∧ ({ State.reset with status := .faulted } : State).status = .faulted := by decide
theorem witness_PlacedWordRunsNext :
    Memory.wf (sample [] 253).mem = true ∧ (sample [] 253).pc ≤ 253 ∧ decodeTableWord 24 0xFF0782 = some (.ldi 7 255) :=
  ⟨rfl, by decide, rfl⟩

end Sys2Proof.Tests
end

section
/-! SUPPORT. What a step reads: the effect of a step depends on the registers, the pc, E, memory and the status alone. -/

namespace Sys2Proof.Machine

/-! ### What an instruction reads -/

/-- A one-register form gives one result to two states that share its handler. -/
theorem withReg_same_result (r : Byte) (s s' : State) (k : Fin 8 → Except CoreFault Effect) :
    ∃ res, withReg r s k = complete s res ∧ withReg r s' k = complete s' res := by
  unfold withReg
  cases checkIndex r with
  | error f => exact ⟨.error f, rfl, rfl⟩
  | ok i => exact ⟨k i, rfl, rfl⟩

/-- A two-register form gives one result to two states that share its handler. -/
theorem withRegs_same_result (ra rb : Byte) (s s' : State) (k : Fin 8 → Fin 8 → Except CoreFault Effect) :
    ∃ res, withRegs ra rb s k = complete s res ∧ withRegs ra rb s' k = complete s' res := by
  unfold withRegs
  cases checkIndex ra with
  | error f => exact ⟨.error f, rfl, rfl⟩
  | ok i =>
    cases checkIndex rb with
    | error f => exact ⟨.error f, rfl, rfl⟩
    | ok j => exact ⟨k i j, rfl, rfl⟩

/-- No instruction reads more than the registers, the pc and E: from states that agree on these it comes to the same
effect or the same fault, whatever else they hold (40_fetch_decode_execute.md rule R107, 10_state.md rule R36). -/
theorem exec_same_result (i : Instr) {s s' : State} (hregs : s'.regs = s.regs) (hpc : s'.pc = s.pc)
    (he : s'.flags.e = s.flags.e) : ∃ res, exec i s = complete s res ∧ exec i s' = complete s' res := by
  obtain ⟨regs, pc, ⟨e, g, l⟩, mem, out, status, cause, faultPc, faultKind, faultValue⟩ := s
  obtain ⟨regs', pc', ⟨e', g', l'⟩, mem', out', status', cause', faultPc', faultKind', faultValue'⟩ := s'
  dsimp only at hregs hpc he
  subst hregs hpc he
  cases i with
  | halt => exact ⟨.ok { halt := true, pcNext := pc' }, rfl, rfl⟩
  | ldi r imm => exact withReg_same_result r _ _ _
  | prn r => exact withReg_same_result r _ _ _
  | jmp r => exact withReg_same_result r _ _ _
  | jeq r => exact withReg_same_result r _ _ _
  | jne r => exact withReg_same_result r _ _ _
  | cmp ra rb => exact withRegs_same_result ra rb _ _ _
  | and ra rb => exact withRegs_same_result ra rb _ _ _
  | or ra rb => exact withRegs_same_result ra rb _ _ _
  | not r => exact withReg_same_result r _ _ _
  | shl ra rb => exact withRegs_same_result ra rb _ _ _
  | shr ra rb => exact withRegs_same_result ra rb _ _ _
  | mod ra rb => exact withRegs_same_result ra rb _ _ _
  | xor ra rb => exact withRegs_same_result ra rb _ _ _

/-! ### What a step reads -/

/-- A fetch reads memory and the pc alone. -/
theorem fetch_congr {s s' : State} (hmem : s'.mem = s.mem) (hpc : s'.pc = s.pc) : fetch s' = fetch s := by
  simp only [fetch, fetchWith, fetchOperand, hmem, hpc]

/-- Two running states that agree on memory, the registers, the pc and E take steps of the same effect or fault. -/
theorem step_same_result {s s' : State} (hs : s.status = .running) (hs' : s'.status = .running)
    (hmem : s'.mem = s.mem) (hregs : s'.regs = s.regs) (hpc : s'.pc = s.pc) (he : s'.flags.e = s.flags.e) :
    ∃ res, step s = complete s res ∧ step s' = complete s' res := by
  have hfetch := fetch_congr hmem hpc
  cases hf : fetch s with
  | error f => exact ⟨.error f, step_of_fetch_error hs hf, step_of_fetch_error hs' (hfetch.trans hf)⟩
  | ok i =>
    rw [step_of_fetch_ok hs hf, step_of_fetch_ok hs' (hfetch.trans hf)]
    exact exec_same_result i hregs hpc he

end Sys2Proof.Machine
end

section
/-! SUPPORT. The next states of PRN, the jumps and CMP with legal indices, and which instructions touch the flags and
the pc. -/

namespace Sys2Proof.Machine

/-! ### PRN, the jumps and CMP, where their indices are legal -/

theorem exec_prn_legal {r : Byte} (h : r.toNat < 8) (s : State) :
    exec (.prn r) s = .next { s with out := s.out ++ [s.regs[r.toNat]], pc := s.pc + 2 } :=
  withReg_ok h s _

theorem exec_jmp_legal {r : Byte} (h : r.toNat < 8) (s : State) :
    exec (.jmp r) s = .next { s with pc := s.regs[r.toNat].toNat } :=
  withReg_ok h s _

theorem exec_jeq_legal {r : Byte} (h : r.toNat < 8) (s : State) :
    exec (.jeq r) s = .next { s with pc := if s.flags.e then s.regs[r.toNat].toNat else s.pc + 2 } :=
  withReg_ok h s _

theorem exec_jne_legal {r : Byte} (h : r.toNat < 8) (s : State) :
    exec (.jne r) s = .next { s with pc := if s.flags.e then s.pc + 2 else s.regs[r.toNat].toNat } := by
  have hmux : jumpMux .ne s s.regs[r.toNat] 1 = if s.flags.e then s.pc + 2 else s.regs[r.toNat].toNat := by
    cases he : s.flags.e <;> simp [jumpMux, takesJump, seqPc, he]
  rw [← hmux]
  exact withReg_ok h s _

theorem exec_cmp_legal {ra rb : Byte} (ha : ra.toNat < 8) (hb : rb.toNat < 8) (s : State) :
    exec (.cmp ra rb) s =
      .next { s with flags := compareFlags s.regs[ra.toNat] s.regs[rb.toNat], pc := s.pc + 3 } :=
  withRegs_ok ha hb s _

/-! ### The pc -/

/-- The operand count as a number: the two high bits of the opcode byte (30_encoding.md rule R71). -/
theorem operandCount_eq_div (op : Byte) : operandCount op = op.toNat / 64 := by
  have hop := op.isLt
  simp only [operandCount, BitVec.extractLsb'_toNat, Nat.shiftRight_eq_div_pow]
  omega

/-- An instruction that completes without halting or jumping advances the pc past itself. -/
theorem exec_pc_sequential {i : Instr} {s t : State} (h : exec i s = .next t) (hfault : t.status ≠ .faulted)
    (hhalt : i ≠ .halt) (hjump : ∀ r, i ≠ .jmp r ∧ i ≠ .jeq r ∧ i ≠ .jne r) :
    t.pc = seqPc s i.mnemonic.operandCount := by
  obtain ⟨f, -, e⟩ | ⟨rfl, -⟩ | ⟨k, v, p, -, -, -, -, -, -, rfl, e⟩ | ⟨ra, rb, ha, hb, rfl, e⟩ | ⟨r, hr, rfl, e⟩ |
    ⟨c, r, hr, hi, -⟩ := exec_cases i s
  · cases e.symm.trans h
    exact absurd (raise_status f s) hfault
  · exact absurd rfl hhalt
  · cases e.symm.trans h
    rfl
  · cases e.symm.trans h
    rfl
  · cases e.symm.trans h
    rfl
  · obtain ⟨hjmp, hjeq, hjne⟩ := hjump r
    obtain ⟨-, rfl⟩ | ⟨-, rfl⟩ | ⟨-, rfl⟩ := hi
    · exact absurd rfl hjmp
    · exact absurd rfl hjeq
    · exact absurd rfl hjne

/-! ### The flags -/

theorem exec_flags_of_ne_cmp {i : Instr} {s t : State} (h : exec i s = .next t) (hi : ∀ ra rb, i ≠ .cmp ra rb) :
    t.flags = s.flags := by
  obtain ⟨f, -, e⟩ | ⟨-, e⟩ | ⟨k, v, p, -, -, -, -, -, -, -, e⟩ | ⟨ra, rb, -, -, rfl, -⟩ | ⟨r, hr, -, e⟩ |
    ⟨c, r, hr, -, e⟩ := exec_cases i s
  case inr.inr.inr.inl => exact absurd rfl (hi ra rb)
  all_goals
    cases e.symm.trans h
    rfl

/-- A step whose result disregards G and L passes a difference in them on, or overwrites it, and does nothing else
with it. -/
theorem complete_greater_less {s t : State} {res : Except CoreFault Effect} (g l : Bool)
    (h : complete s res = .next t) :
    ∃ g' l', complete { s with flags := { s.flags with g := g, l := l } } res =
      .next { t with flags := { t.flags with g := g', l := l' } } := by
  obtain ⟨f, rfl, e⟩ | ⟨⟨regWrite, flagsWrite, out, halt, pcNext⟩, rfl, e⟩ := complete_next s res
  · cases e.symm.trans h
    exact ⟨g, l, rfl⟩
  · cases e.symm.trans h
    cases flagsWrite with
    | none => exact ⟨g, l, rfl⟩
    | some f => exact ⟨f.g, f.l, rfl⟩

end Sys2Proof.Machine
end

section
/-! SUPPORT. The statements about reset, the pc and the flags (10_state.md), settled. -/

namespace Sys2Proof.Machine

/-- Settles O1: the next state of PRN, at reset. -/
theorem resetRegistersReadZero : Obligations.ResetRegistersReadZero := by
  have hzero : ∀ i : Fin 8, getReg State.reset i = 0 := fun i => by simp [getReg]
  refine ⟨hzero, fun r h => ?_⟩
  have hr : State.reset.regs[r.toNat] = 0 := hzero ⟨r.toNat, h⟩
  rw [exec_prn_legal h, hr]
  rfl

/-- Settles O26: the sequential pc is `exec_pc_sequential`, with the operand count read from the opcode byte; the jumps
are their next states. -/
theorem pcAdvancesOrJumps : Obligations.PcAdvancesOrJumps := by
  refine ⟨fun i s t h hfault hhalt hjump => ?_, fun r s h => ⟨_, exec_jmp_legal h s, rfl⟩,
    fun r s h => ⟨_, exec_jeq_legal h s, rfl⟩, fun r s h => ⟨_, exec_jne_legal h s, rfl⟩⟩
  rw [exec_pc_sequential h hfault hhalt hjump, ← operandCount_eq_div, operandCount_opcodeMap, seqPc]

/-- Settles O27: an instruction other than CMP keeps the flags, so a step that changes one neither faulted nor ran
another instruction. -/
theorem onlyCompareWritesFlags : Obligations.OnlyCompareWritesFlags := by
  refine ⟨fun i s t h hi => exec_flags_of_ne_cmp h hi, fun s t h hflags => ?_, fun ra rb s ha hb => ?_⟩
  · obtain ⟨-, ⟨f, -, rfl⟩ | ⟨i, hfetch, hexec⟩⟩ := step_cases h
    · exact absurd (raise_flags f s) hflags
    · by_contra hcmp
      refine hflags (exec_flags_of_ne_cmp hexec ?_)
      rintro ra rb rfl
      exact hcmp ⟨ra, rb, hfetch⟩
  · exact ⟨_, exec_cmp_legal ha hb s, decide_eq_decide.2 BitVec.toNat_inj.symm, rfl, rfl⟩

/-- Settles O28: by `step_same_result` a step's result does not depend on G and L, and its end keeps the difference
within them. -/
theorem greaterAndLessAreUnread : Obligations.GreaterAndLessAreUnread := by
  refine ⟨fun s t g l h => ?_, fun r s h => ?_, fun ra rb s ha hb => exec_cmp_legal ha hb s⟩
  · have hs := (step_cases h).1
    obtain ⟨res, e, e'⟩ :=
      step_same_result (s' := { s with flags := { s.flags with g := g, l := l } }) hs hs rfl rfl rfl rfl
    rw [e']
    exact complete_greater_less g l (e.symm.trans h)
  · rw [exec_jeq_legal h, exec_jne_legal h]
    constructor
    · intro he
      simp [he]
    · intro he
      simp [he]

end Sys2Proof.Machine
end

section
/-! SUPPORT. Memory and the step (20_memory.md): what each port answers, and that a step keeps memory and depends on the
three bytes it fetches alone. -/

namespace Sys2Proof.Machine

/-! ### The ports -/

theorem memRead_of_le {a : Nat} (h : a ≤ 255) (m : Memory) : memRead m a = .ok (Memory.get m a) :=
  if_neg (Nat.not_lt.2 h)

theorem memRead_of_gt {a : Nat} (h : 255 < a) (m : Memory) : memRead m a = .error (.outOfRangeAddress a) :=
  if_pos h

theorem memWrite_of_le {a : Nat} (h : a ≤ 255) (m : Memory) (v : Byte) : memWrite m a v = .ok (Memory.set m a v) :=
  if_neg (Nat.not_lt.2 h)

theorem memWrite_of_gt {a : Nat} (h : 255 < a) (m : Memory) (v : Byte) :
    memWrite m a v = .error (.outOfRangeAddress a) :=
  if_pos h

/-- The read port sees no cell but the one it is asked for (rule R52). -/
theorem memRead_congr {m m' : Memory} {a : Nat} (h : Memory.get m a = Memory.get m' a) :
    memRead m a = memRead m' a := by
  simp only [memRead, h]

/-! ### Memory is not written -/

theorem complete_mem {s t : State} {res : Except CoreFault Effect} (h : complete s res = .next t) :
    t.mem = s.mem := by
  obtain ⟨f, -, e⟩ | ⟨eff, -, e⟩ := complete_next s res
  · cases e.symm.trans h
    exact raise_mem f s
  · cases e.symm.trans h
    exact commit_mem eff s

theorem step_mem {s t : State} (h : step s = .next t) : t.mem = s.mem := by
  have hs := (step_cases h).1
  obtain ⟨res, e, -⟩ := step_same_result hs hs rfl rfl rfl rfl
  exact complete_mem (e.symm.trans h)

/-! ### What depends on memory -/

/-- The end of a step carries other contents of memory along. -/
theorem complete_with_mem {s t : State} {res : Except CoreFault Effect} (m : Memory) (h : complete s res = .next t) :
    complete { s with mem := m } res = .next { t with mem := m } := by
  obtain ⟨f, rfl, e⟩ | ⟨eff, rfl, e⟩ := complete_next s res
  · cases e.symm.trans h
    rfl
  · cases e.symm.trans h
    rfl

/-- An instruction once fetched does the same whatever memory holds. -/
theorem exec_with_mem {i : Instr} {s t : State} (m : Memory) (h : exec i s = .next t) :
    exec i { s with mem := m } = .next { t with mem := m } := by
  obtain ⟨res, e, e'⟩ := exec_same_result i (s := s) (s' := { s with mem := m }) rfl rfl rfl
  rw [e']
  exact complete_with_mem m (e.symm.trans h)

/-- A fetch depends on the bytes at pc, pc+1 and pc+2 alone (rule R54). -/
theorem fetch_with_mem {s : State} {m : Memory}
    (hbytes : ∀ k, k ≤ 2 → Memory.get m (s.pc + k) = Memory.get s.mem (s.pc + k)) :
    fetch { s with mem := m } = fetch s := by
  have hread : ∀ k, k ≤ 2 → memRead m (s.pc + k) = memRead s.mem (s.pc + k) := fun k hk => memRead_congr (hbytes k hk)
  have hopcode : memRead m s.pc = memRead s.mem s.pc := hread 0 (by decide)
  simp only [fetch, fetchWith, fetchOperand, hopcode, hread 1 (by decide), hread 2 (by decide)]

/-- A step under other contents of memory with the same three bytes at the pc does the same. -/
theorem step_with_mem {s t : State} {m : Memory} (h : step s = .next t)
    (hbytes : ∀ k, k ≤ 2 → Memory.get m (s.pc + k) = Memory.get s.mem (s.pc + k)) :
    step { s with mem := m } = .next { t with mem := m } := by
  have hfetch := fetch_with_mem hbytes
  obtain ⟨hs, ⟨f, hf, rfl⟩ | ⟨i, hf, hexec⟩⟩ := step_cases h
  · exact step_of_fetch_error hs (hfetch.trans hf)
  · rw [step_of_fetch_ok (s := { s with mem := m }) hs (hfetch.trans hf)]
    exact exec_with_mem m hexec

/-! ### The statements, settled -/

/-- Settles O24: no commit and no fault writes memory, `exec` does not read it, and a fetch reads three bytes of it. -/
theorem memoryIsOnlyFetched : Obligations.MemoryIsOnlyFetched :=
  ⟨fun _ _ h => step_mem h, fun _ _ _ m h => exec_with_mem m h, fun _ _ _ h hbytes => step_with_mem h hbytes⟩

/-- Settles O7: each port on either side of its bounds check. -/
theorem memoryPortsAreBoundsChecked : Obligations.MemoryPortsAreBoundsChecked :=
  ⟨fun m _ h => memRead_of_le h m, fun m _ v h => ⟨_, memWrite_of_le h m v⟩, fun m _ h => memRead_of_gt h m,
    fun m _ v h => memWrite_of_gt h m v⟩

end Sys2Proof.Machine
end

section
/-! SUPPORT. The bytes an instruction takes (30_encoding.md section 1): what the decoder consumes and what the encoder
writes, and the width the opcode byte gives. -/

namespace Sys2Proof

open Config (OpcodeMap)

/-! ### An instruction and its operand bytes -/

@[simp] theorem Mnemonic.mnemonic_assemble (m : Mnemonic) (b1 b2 : Byte) : (m.assemble b1 b2).mnemonic = m := by
  cases m <;> rfl

@[simp] theorem Mnemonic.operands_assemble (m : Mnemonic) (b1 b2 : Byte) :
    (m.assemble b1 b2).operands = [b1, b2].take m.operandCount := by
  cases m <;> rfl

@[simp] theorem Instr.length_operands (i : Instr) : i.operands.length = i.mnemonic.operandCount := by
  cases i <;> rfl

theorem Instr.length_encodeWith (map : OpcodeMap) (i : Instr) : (i.encodeWith map).length = i.width := by
  simp [Instr.encodeWith, Instr.width, Nat.add_comm]

/-! ### What the decoder takes -/

/-- Everything a decode that answers an instruction can have done, under any map: the opcode byte is a mnemonic's, and
the operand bytes it took are as many as `op[7:6]` says, two at most. -/
theorem decodeWith_ok_cases {map : OpcodeMap} {op : Byte} {bytes rest : List Byte} {i : Instr}
    (h : decodeWith map (op :: bytes) = .ok (i, rest)) :
    ∃ m b1 b2, decodeOpcodeWith map op = some m ∧ i = m.assemble b1 b2 ∧
      bytes = [b1, b2].take (operandCount op) ++ rest := by
  unfold decodeWith at h
  cases hop : decodeOpcodeWith map op with
  | none => simp [hop] at h
  | some m =>
    simp only [hop] at h
    split at h
    next h0 =>
      cases h
      exact ⟨m, 0, 0, rfl, rfl, by simp [h0]⟩
    next h0 =>
      cases bytes with
      | nil => cases h
      | cons b1 bytes =>
        dsimp only at h
        split at h
        next h1 =>
          cases h
          exact ⟨m, b1, 0, rfl, rfl, by simp [h1]⟩
        next h1 =>
          cases bytes with
          | nil => cases h
          | cons b2 bytes =>
            cases h
            have h2 : 2 ≤ operandCount op := by omega
            exact ⟨m, b1, b2, rfl, rfl, by simp [List.take_of_length_le, h2]⟩

/-- The bytes a decode consumes are the encoding of what it answers, where the map's bytes carry their operand
counts. -/
theorem eq_encodeWith_append_of_decodeWith {map : OpcodeMap} (hcount : ∀ m, operandCount (map m) = m.operandCount)
    {bytes rest : List Byte} {i : Instr} (h : decodeWith map bytes = .ok (i, rest)) :
    bytes = i.encodeWith map ++ rest := by
  cases bytes with
  | nil => cases h
  | cons op bytes =>
    obtain ⟨m, b1, b2, hop, rfl, rfl⟩ := decodeWith_ok_cases h
    rw [← decodeOpcodeWith_some hop]
    simp [Instr.encodeWith, hcount]

/-- The width is told by the opcode byte (rule R71). -/
theorem Instr.width_eq_div (i : Instr) : i.width = 1 + (opcodeMap i.mnemonic).toNat / 64 := by
  rw [Instr.width, ← operandCount_opcodeMap, Machine.operandCount_eq_div]

end Sys2Proof
end

section
/-! SUPPORT. The bytes of no mnemonic (30_encoding.md rule R80): how many there are, which are among them, and what
fetching one does. -/

namespace Sys2Proof

open Config (OpcodeMap)

/-! ### Which bytes are unknown -/

theorem Mnemonic.nodup_all : Mnemonic.all.Nodup := by decide

theorem opcodeMap_injective {m m' : Mnemonic} (h : opcodeMap m = opcodeMap m') : m = m' := by
  have hdecode : ∀ m, decodeOpcode (opcodeMap m) = some m := fun m => by cases m <;> rfl
  exact Option.some.inj ((hdecode m).symm.trans ((congrArg decodeOpcode h).trans (hdecode m')))

/-- The byte values the table knows are the mnemonics' bytes. -/
theorem mem_filter_known {map : OpcodeMap} {v : Nat} :
    v ∈ (List.range 256).filter (fun v => !decide (decodeOpcodeWith map (BitVec.ofNat 8 v) = none)) ↔
      v ∈ Mnemonic.all.map (fun m => (map m).toNat) := by
  have hbyte : ∀ m, v < 256 ∧ map m = BitVec.ofNat 8 v ↔ (map m).toNat = v := fun m => by
    have := (map m).isLt
    constructor
    · rintro ⟨hv, hm⟩
      simp [hm, Nat.mod_eq_of_lt hv]
    · rintro rfl
      simpa using this
  simp [decodeOpcodeWith_none, Mnemonic.mem_all, ← hbyte]

/-- An injective map leaves 256 - 14 byte values unknown. -/
theorem length_filter_unknown {map : OpcodeMap} (hinj : ∀ m m', map m = map m' → m = m') :
    ((List.range 256).filter (fun v => decide (decodeOpcodeWith map (BitVec.ofNat 8 v) = none))).length = 242 := by
  have hnodup : (Mnemonic.all.map (fun m => (map m).toNat)).Nodup :=
    Mnemonic.nodup_all.map fun m m' h => hinj m m' (BitVec.eq_of_toNat_eq h)
  have hknown := ((List.perm_ext_iff_of_nodup (List.nodup_range.filter _) hnodup).2
    fun v => mem_filter_known (map := map)).length_eq
  have hsplit := (List.range 256).length_eq_length_filter_add
    (fun v => decide (decodeOpcodeWith map (BitVec.ofNat 8 v) = none))
  simp only [List.length_map, List.length_range] at hknown hsplit
  have hall : Mnemonic.all.length = 14 := rfl
  omega

/-- A byte whose `op[7:6]` is 3 is no mnemonic's: none takes three operand bytes. -/
theorem decodeOpcode_eq_none_of_ge {op : Byte} (h : 0xC0 ≤ op.toNat) : decodeOpcode op = none := by
  refine decodeOpcodeWith_none.2 ?_
  rintro m rfl
  have hcount := operandCount_opcodeMap m
  rw [Machine.operandCount_eq_div] at hcount
  have := m.operandCount_le
  omega

end Sys2Proof

namespace Sys2Proof.Machine

/-! ### Fetching one -/

theorem fetch_of_unknown {s : State} (hpc : s.pc ≤ 255) (hop : decodeOpcode (Memory.get s.mem s.pc) = none) :
    fetch s = .error (.unknownOpcode (Memory.get s.mem s.pc)) := by
  have hop : decodeOpcodeWith opcodeMap (Memory.get s.mem s.pc) = none := hop
  simp [fetch, fetchWith, memRead_of_le hpc, hop]

end Sys2Proof.Machine
end

section
/-! SUPPORT. The statements about widths and unknown opcodes (30_encoding.md), settled. -/

namespace Sys2Proof.Machine

/-- Settles O13: what a decode consumes is the encoding of what it answers, and an encoding is as long as its opcode
byte tells. -/
theorem widthIsInTheOpcodeByte : Obligations.WidthIsInTheOpcodeByte := by
  refine ⟨operandCount_eq_div, fun op rest i rest' h => ?_,
    fun i => (i.length_encodeWith opcodeMap).trans i.width_eq_div⟩
  have hbytes := eq_encodeWith_append_of_decodeWith operandCount_opcodeMap h
  have hop : op = opcodeMap i.mnemonic := (List.cons.inj hbytes).1
  have hwidth : i.width = 1 + op.toNat / 64 := hop ▸ i.width_eq_div
  refine ⟨?_, hwidth⟩
  rw [hbytes, List.length_append, i.length_encodeWith, hwidth]

/-- Settles O14: the table read for UNKNOWN, the count under an injective map, and the fault of a fetch that fails. -/
theorem unknownOpcodesFault : Obligations.UnknownOpcodesFault :=
  ⟨fun _ => decodeOpcodeWith_none, length_filter_unknown fun _ _ => opcodeMap_injective, rfl,
    fun _ => decodeOpcode_eq_none_of_ge, fun _ hs hpc hop => step_of_fetch_error hs (fetch_of_unknown hpc hop)⟩

end Sys2Proof.Machine
end

section
/-! SUPPORT. The step at the opcode byte of a known mnemonic: it runs the instruction, or an operand byte lies past
address 255. -/

namespace Sys2Proof

theorem decodeOpcodeWith_opcodeMap (m : Mnemonic) : decodeOpcodeWith opcodeMap (opcodeMap m) = some m :=
  decodeOpcodeWith_map (fun _ _ => opcodeMap_injective) m

/-- An operand byte past the mnemonic's count makes no difference to the instruction (30_encoding.md rule R75). -/
theorem Mnemonic.assemble_fetched (m : Mnemonic) (b1 b2 : Byte) :
    m.assemble (if 1 ≤ m.operandCount then b1 else 0) (if 2 ≤ m.operandCount then b2 else 0) = m.assemble b1 b2 := by
  cases m <;> rfl

end Sys2Proof

namespace Sys2Proof.Machine

/-- Everything a fetch at the opcode byte of a mnemonic can do: the first operand byte past address 255 is at 256,
or there is none and the instruction is assembled from the bytes that follow. -/
theorem fetch_opcode_cases {s : State} {m : Mnemonic} (hpc : s.pc ≤ 255)
    (hop : Memory.get s.mem s.pc = opcodeMap m) :
    (255 < s.pc + m.operandCount ∧ fetch s = .error (.outOfRangeAddress 256)) ∨
    (s.pc + m.operandCount ≤ 255 ∧
      fetch s = .ok (m.assemble (Memory.get s.mem (s.pc + 1)) (Memory.get s.mem (s.pc + 2)))) := by
  have hle := m.operandCount_le
  have hcases := fetchWith_cases opcodeMap s
  simp only [hop, decodeOpcodeWith_opcodeMap, operandCount_opcodeMap] at hcases
  obtain ⟨hgt, -⟩ | ⟨-, hnone, -⟩ | ⟨m', -, hm, hfetch⟩ := hcases
  · omega
  · cases hnone
  · cases hm
    obtain ⟨h1, hgt, e⟩ | ⟨h2, hfirst, hgt, e⟩ | ⟨hfit, e⟩ := hfetch
    · have haddr : s.pc + 1 = 256 := by omega
      exact .inl ⟨by omega, haddr ▸ e⟩
    · have haddr : s.pc + 2 = 256 := by omega
      exact .inl ⟨by omega, haddr ▸ e⟩
    · rw [m.assemble_fetched] at e
      exact .inr ⟨by omega, e⟩

/-- A step at an instruction that fits below address 256 runs it. -/
theorem step_of_opcode {s : State} {m : Mnemonic} (hs : s.status = .running) (hfit : s.pc + m.operandCount ≤ 255)
    (hop : Memory.get s.mem s.pc = opcodeMap m) :
    step s = exec (m.assemble (Memory.get s.mem (s.pc + 1)) (Memory.get s.mem (s.pc + 2))) s := by
  obtain ⟨hgt, -⟩ | ⟨-, hf⟩ := fetch_opcode_cases (by omega) hop
  · omega
  · exact step_of_fetch_ok hs hf

/-- A step at an instruction whose operands run past address 255 faults at address 256 (60_exceptions.md rule R226). -/
theorem step_of_missing_operand {s : State} {m : Mnemonic} (hs : s.status = .running) (hpc : s.pc ≤ 255)
    (hgt : 255 < s.pc + m.operandCount) (hop : Memory.get s.mem s.pc = opcodeMap m) :
    step s = .next (raise (.outOfRangeAddress 256) s) := by
  obtain ⟨-, hf⟩ | ⟨hfit, -⟩ := fetch_opcode_cases hpc hop
  · exact step_of_fetch_error hs hf
  · omega

end Sys2Proof.Machine
end

section
/-! SUPPORT. The statement about LDI (41_halt_load_print.md), settled. -/

namespace Sys2Proof.Machine

theorem exec_ldi_legal {r : Byte} (h : r.toNat < 8) (imm : Byte) (s : State) :
    exec (.ldi r imm) s = .next { s with regs := s.regs.set r.toNat imm, pc := s.pc + 3 } :=
  withReg_ok h s _

theorem exec_ldi_illegal {r : Byte} (h : 7 < r.toNat) (imm : Byte) (s : State) :
    exec (.ldi r imm) s = .next (raise (.outOfRangeRegister r) s) :=
  withReg_error h s _

/-- Settles O33: the two outcomes of LDI, and the step at its opcode byte with both operands below address 256 or
not. -/
theorem ldiLoadsImmediate : Obligations.LdiLoadsImmediate := by
  have hcount : Mnemonic.ldi.operandCount = 2 := rfl
  refine ⟨fun r imm s h => exec_ldi_legal h imm s, fun r imm s h => exec_ldi_illegal h imm s,
    fun s hs hpc hop => ?_, fun s hs hpc hop => ?_⟩
  · exact step_of_opcode (m := .ldi) hs (by omega) hop
  · exact step_of_missing_operand (m := .ldi) hs (by omega) (by omega) hop

end Sys2Proof.Machine
end

section
/-! SUPPORT. The statement about the ALU instructions and the flags (44_alu.md), settled. -/

namespace Sys2Proof.Machine

/-- The end of a step passes a difference in the flags on, or overwrites it, and does nothing else with it. -/
theorem complete_with_flags {s t : State} {res : Except CoreFault Effect} (f : Flags)
    (h : complete s res = .next t) :
    ∃ f', complete { s with flags := f } res = .next { t with flags := f' } := by
  obtain ⟨fault, rfl, e⟩ | ⟨eff, rfl, e⟩ := complete_next s res
  · cases e.symm.trans h
    exact ⟨f, rfl⟩
  · cases e.symm.trans h
    exact ⟨(commit eff { s with flags := f }).flags, rfl⟩

/-- An ALU instruction comes to the same effect or fault whatever the flags are: its handler is given registers and the
pc alone. -/
theorem exec_alu_same_result (ra rb : Byte) (s : State) (f : Flags) :
    ∀ i ∈ [Instr.and ra rb, .or ra rb, .not ra, .shl ra rb, .shr ra rb, .mod ra rb, .xor ra rb],
      ∃ res, exec i s = complete s res ∧ exec i { s with flags := f } = complete { s with flags := f } res := by
  simp only [List.forall_mem_cons]
  exact ⟨withRegs_same_result ra rb _ _ _, withRegs_same_result ra rb _ _ _, withReg_same_result ra _ _ _,
    withRegs_same_result ra rb _ _ _, withRegs_same_result ra rb _ _ _, withRegs_same_result ra rb _ _ _,
    withRegs_same_result ra rb _ _ _, List.forall_mem_nil _⟩

/-- Settles O29: by `exec_alu_same_result` the two runs end alike but for the flags, and each of them keeps its own, as
every instruction other than CMP does. -/
theorem aluIgnoresFlags : Obligations.AluIgnoresFlags := by
  intro ra rb s t f i hi h
  have hcmp : ∀ a b, i ≠ .cmp a b := by
    rintro a b rfl
    simp at hi
  obtain ⟨res, e, e'⟩ := exec_alu_same_result ra rb s f i hi
  obtain ⟨f', hf'⟩ := complete_with_flags f (e.symm.trans h)
  have hexec := e'.trans hf'
  obtain rfl : f' = f := exec_flags_of_ne_cmp hexec hcmp
  exact ⟨exec_flags_of_ne_cmp h hcmp, hexec⟩

end Sys2Proof.Machine
end

section
/-! SUPPORT. The statement about the fault classes (60_exceptions.md), settled: a step that ends FAULTED took one of the
core's faults, and a fresh machine takes each class of them. -/

namespace Sys2Proof.Machine

/-! ### A faulting step took a fault of the core -/

theorem commit_status_ne_faulted {s : State} (hs : s.status = .running) (eff : Effect) :
    (commit eff s).status ≠ .faulted := by
  obtain ⟨regWrite, flagsWrite, out, halt, pcNext⟩ := eff
  cases halt with
  | true => simp
  | false => simp [hs]

/-- FAULTED is entered by `raise` alone: a commit leaves the machine running or halts it. -/
theorem step_faulted_eq_raise {s t : State} (h : step s = .next t) (hfault : t.status = .faulted) :
    ∃ f, t = raise f s := by
  obtain ⟨hs, -⟩ := step_cases h
  obtain ⟨res, hres, -⟩ := step_same_result hs hs rfl rfl rfl rfl
  obtain ⟨f, -, e⟩ | ⟨eff, -, e⟩ := complete_next s res
  · cases e.symm.trans (hres.symm.trans h)
    exact ⟨f, rfl⟩
  · cases e.symm.trans (hres.symm.trans h)
    exact absurd hfault (commit_status_ne_faulted hs eff)

theorem CoreFault.cause_cases (f : CoreFault) :
    f.cause = .unknownOpcode ∨ f.cause = .outOfRange ∨ f.cause = .divideByZero := by
  cases f with
  | unknownOpcode op => exact .inl rfl
  | outOfRangeAddress addr => exact .inr (.inl rfl)
  | outOfRangeRegister index => exact .inr (.inl rfl)
  | divideByZero => exact .inr (.inr rfl)

/-! ### A state that takes each class of fault -/

/-- The machine after reset, with memory `m` and the pc at `p`. -/
def freshState (m : Memory) (p : Nat) : State := { State.reset with mem := m, pc := p }

theorem freshState_inv {m : Memory} {p : Nat} (hm : Memory.wf m = true) (hp : p ≤ 256) :
    StateInv (freshState m p) where
  pcRange := hp
  memWf := hm
  flagsOneHot := (by decide : State.reset.flags.atMostOne)
  clearUnlessFaulted _ := ⟨rfl, rfl, rfl, rfl⟩
  faultedRecord h := nomatch h
  haltedAtHalt h := nomatch h

/-- The byte 0x00 of an empty memory is no opcode (60_exceptions.md rule R221). -/
theorem step_zero_byte : step (freshState [] 0) = .next (raise (.unknownOpcode 0) (freshState [] 0)) := rfl

/-- A pc of 256 lies past the last cell (rule R222). -/
theorem step_past_end : step (freshState [] 256) = .next (raise (.outOfRangeAddress 256) (freshState [] 256)) := rfl

/-- MOD R0, R0, where R0 is 0 as reset leaves it (rule R223). -/
theorem step_mod_zero :
    step (freshState [(0, 0xA4)] 0) = .next (raise .divideByZero (freshState [(0, 0xA4)] 0)) := rfl

/-- Settles O23: a faulting step is a `raise`, whose cause is one of the three, and a fresh machine takes each of them
at its first step. -/
theorem exactlyThreeFaultClasses : Obligations.ExactlyThreeFaultClasses := by
  refine ⟨fun s t h hfault => ?_, fun c hc => ?_⟩
  · obtain ⟨f, rfl⟩ := step_faulted_eq_raise h hfault
    exact f.cause_cases
  · cases c with
    | none => exact absurd rfl hc
    | unknownOpcode => exact ⟨_, _, freshState_inv rfl (by decide), step_zero_byte, rfl, rfl⟩
    | outOfRange => exact ⟨_, _, freshState_inv rfl (by decide), step_past_end, rfl, rfl⟩
    | divideByZero => exact ⟨_, _, freshState_inv rfl (by decide), step_mod_zero, rfl, rfl⟩

end Sys2Proof.Machine
end

section
/-! SUPPORT. The round trip between instructions and bytes (30_encoding.md sections 1 to 3), under any legal opcode map,
and what the control words say of an instruction's operands. -/

namespace Sys2Proof

open Config (OpcodeMap)

/-! ### An instruction is its mnemonic and its operand bytes -/

theorem Instr.reassembles (i : Instr) : Laws.Reassembles.Statement i := by
  cases i with
  | halt => exact Laws.Reassembles.halt
  | ldi r imm => exact Laws.Reassembles.ldi r imm
  | prn r => exact Laws.Reassembles.prn r
  | jmp r => exact Laws.Reassembles.jmp r
  | jeq r => exact Laws.Reassembles.jeq r
  | jne r => exact Laws.Reassembles.jne r
  | cmp ra rb => exact Laws.Reassembles.cmp ra rb
  | and ra rb => exact Laws.Reassembles.and ra rb
  | or ra rb => exact Laws.Reassembles.or ra rb
  | not r => exact Laws.Reassembles.not r
  | shl ra rb => exact Laws.Reassembles.shl ra rb
  | shr ra rb => exact Laws.Reassembles.shr ra rb
  | mod ra rb => exact Laws.Reassembles.mod ra rb
  | xor ra rb => exact Laws.Reassembles.xor ra rb

theorem Instr.eq_assemble (i : Instr) : ∃ m b1 b2, i = Mnemonic.assemble m b1 b2 :=
  ⟨i.mnemonic, _, _, i.reassembles.2.symm⟩

theorem Instr.eq_of_mnemonic_of_operands {i j : Instr} (hm : i.mnemonic = j.mnemonic)
    (hops : i.operands = j.operands) : i = j := by
  rw [← i.reassembles.2, ← j.reassembles.2, hm, hops]

/-! ### Decoding -/

/-- The decoder answers the instruction of an opcode byte it knows and as many operand bytes as the mnemonic takes,
and hands on what follows them. -/
theorem decodeWith_of_operands {map : OpcodeMap} {op : Byte} {m : Mnemonic} (hop : decodeOpcodeWith map op = some m)
    (hcount : operandCount op = m.operandCount) (b1 b2 : Byte) (rest : List Byte) :
    decodeWith map (op :: ([b1, b2].take m.operandCount ++ rest)) = .ok (m.assemble b1 b2, rest) := by
  rw [← m.assemble_fetched b1 b2]
  have hle := m.operandCount_le
  obtain h | h | h : m.operandCount = 0 ∨ m.operandCount = 1 ∨ m.operandCount = 2 := by omega
  · simp [decodeWith, hop, hcount, h]
  · simp [decodeWith, hop, hcount, h]
  · simp [decodeWith, hop, hcount, h]

theorem decodeWith_encodeWith {map : OpcodeMap} (hmap : LegalOpcodeMap map) (i : Instr) (rest : List Byte) :
    decodeWith map (i.encodeWith map ++ rest) = .ok (i, rest) := by
  obtain ⟨hinj, -, -, -, hcount⟩ := hmap
  obtain ⟨m, b1, b2, rfl⟩ := i.eq_assemble
  simpa [Instr.encodeWith] using decodeWith_of_operands (decodeOpcodeWith_map hinj m) (hcount m) b1 b2 rest

/-! ### The control words -/

theorem Mnemonic.controlWord_n (m : Mnemonic) : m.controlWord.n = m.operandCount := by cases m <;> rfl

/-- The wire that carries operand byte `k`. -/
def slotByte (b1 b2 : Byte) (k : Nat) : Byte := if k = 1 then b1 else b2

/-- The register operands are the operand bytes in the slots the control word lists (40_fetch_decode_execute.md rule
R104). -/
theorem Mnemonic.regOperands_assemble (m : Mnemonic) (b1 b2 : Byte) :
    (m.assemble b1 b2).regOperands = m.controlWord.regslots.map (slotByte b1 b2) := by
  cases m <;> rfl

theorem Instr.regOperands_eq_map_getD (i : Instr) :
    i.regOperands = i.mnemonic.controlWord.regslots.map (fun k => i.operands.getD (k - 1) 0) := by
  cases i <;> rfl

theorem Mnemonic.cls_eq_alu_iff (m : Mnemonic) : m.controlWord.cls = .alu ↔ m.controlWord.aluOp ≠ none := by
  cases m <;> decide

theorem Mnemonic.cls_eq_jump_iff (m : Mnemonic) : m.controlWord.cls = .jump ↔ m.controlWord.jcond ≠ .never := by
  cases m <;> decide

theorem instructionDecoder_opcodeMap (m : Mnemonic) : instructionDecoder (opcodeMap m) = some m.controlWord :=
  congrArg (Option.map Mnemonic.controlWord) (decodeOpcodeWith_opcodeMap m)

/-! ### The statements, settled -/

/-- Settles O10: the map is injective and its bytes carry their operand counts. -/
theorem defaultOpcodeMapIsLegal : Obligations.DefaultOpcodeMapIsLegal :=
  ⟨fun _ _ => opcodeMap_injective, rfl, rfl, rfl, operandCount_opcodeMap⟩

/-- Settles O11: the round trip under a legal map, of which the machine's is one. -/
theorem decodeOfEncode : Obligations.DecodeOfEncode :=
  ⟨fun _ hmap => decodeWith_encodeWith hmap, decodeWith_encodeWith defaultOpcodeMapIsLegal⟩

/-- Settles O12: of a legal map only the operand counts are needed. -/
theorem encodeOfDecode : Obligations.EncodeOfDecode :=
  fun _ ⟨_, _, _, _, hcount⟩ _ _ _ h => eq_encodeWith_append_of_decodeWith hcount h

/-- Settles O15: one lemma for each column of the table. -/
theorem controlWordsAgreeWithSyntax : Obligations.ControlWordsAgreeWithSyntax := fun i =>
  ⟨i.mnemonic.controlWord_n.trans (operandCount_opcodeMap i.mnemonic).symm,
    i.length_operands.trans i.mnemonic.controlWord_n.symm, i.regOperands_eq_map_getD, i.mnemonic.cls_eq_alu_iff,
    i.mnemonic.cls_eq_jump_iff, instructionDecoder_opcodeMap i.mnemonic⟩

/-- Settles O16: each word is the encoding of its instruction, and 0x02 is the byte of no mnemonic. -/
theorem exampleWordsDecode : Obligations.ExampleWordsDecode :=
  have hdecode (i : Instr) : decode i.encode = .ok (i, []) := by
    simpa using decodeOfEncode.2 i []
  ⟨hdecode (.ldi 0 8), hdecode (.prn 0), hdecode .halt, hdecode (.jmp 2), hdecode (.cmp 0 9), hdecode (.mod 0 200),
    rfl⟩

end Sys2Proof
end

section
/-! SUPPORT. What a step can end in, and the invariant, which every step keeps (40_fetch_decode_execute.md section 1,
60_exceptions.md section 1). -/

namespace Sys2Proof.Machine

/-! ### The flags CMP writes -/

/-- 43_compare.md rule R171: of two bytes one is the greater or they are equal. -/
theorem compareFlags_oneHot (a b : Byte) :
    compareFlags a b = ⟨true, false, false⟩ ∨ compareFlags a b = ⟨false, true, false⟩ ∨
      compareFlags a b = ⟨false, false, true⟩ := by
  have heq : a = b ↔ a.toNat = b.toNat := BitVec.toNat_inj.symm
  obtain h | h | h := Nat.lt_trichotomy a.toNat b.toNat
  · exact .inr (.inr (by simp [compareFlags, heq]; omega))
  · exact .inl (by simp [compareFlags, heq]; omega)
  · exact .inr (.inl (by simp [compareFlags, heq]; omega))

theorem compareFlags_atMostOne (a b : Byte) : (compareFlags a b).atMostOne := by
  obtain h | h | h := compareFlags_oneHot a b
  · rw [h]; decide
  · rw [h]; decide
  · rw [h]; decide

/-! ### Fetch -/

theorem fetch_of_pc_gt {s : State} (h : 255 < s.pc) : fetch s = .error (.outOfRangeAddress s.pc) := by
  simp [fetch, fetchWith, memRead_of_gt h]

/-- Everything a fetch can do, by the byte at the pc: `fetchWith_cases` under the machine's own map. -/
theorem fetch_cases (s : State) :
    (255 < s.pc ∧ fetch s = .error (.outOfRangeAddress s.pc)) ∨
    (s.pc ≤ 255 ∧ decodeOpcode (Memory.get s.mem s.pc) = none ∧
      fetch s = .error (.unknownOpcode (Memory.get s.mem s.pc))) ∨
    (∃ m, s.pc ≤ 255 ∧ Memory.get s.mem s.pc = opcodeMap m ∧ 255 < s.pc + m.operandCount ∧
      fetch s = .error (.outOfRangeAddress 256)) ∨
    (∃ m, Memory.get s.mem s.pc = opcodeMap m ∧ s.pc + m.operandCount ≤ 255 ∧
      fetch s = .ok (m.assemble (Memory.get s.mem (s.pc + 1)) (Memory.get s.mem (s.pc + 2)))) := by
  by_cases hpc : 255 < s.pc
  · exact .inl ⟨hpc, fetch_of_pc_gt hpc⟩
  · have hle : s.pc ≤ 255 := by omega
    cases hop : decodeOpcode (Memory.get s.mem s.pc) with
    | none => exact .inr (.inl ⟨hle, rfl, fetch_of_unknown hle hop⟩)
    | some m =>
      have hbyte : Memory.get s.mem s.pc = opcodeMap m := (decodeOpcodeWith_some hop).symm
      obtain ⟨hgt, hf⟩ | ⟨hfit, hf⟩ := fetch_opcode_cases hle hbyte
      · exact .inr (.inr (.inl ⟨m, hle, hbyte, hgt, hf⟩))
      · exact .inr (.inr (.inr ⟨m, hbyte, hfit, hf⟩))

/-- An instruction that was fetched lies below address 256 and its opcode byte stands at the pc. -/
theorem fetch_ok {s : State} {i : Instr} (h : fetch s = .ok i) :
    s.pc + i.mnemonic.operandCount ≤ 255 ∧ decodeOpcode (Memory.get s.mem s.pc) = some i.mnemonic := by
  obtain ⟨-, e⟩ | ⟨-, -, e⟩ | ⟨m, -, -, -, e⟩ | ⟨m, hbyte, hfit, e⟩ := fetch_cases s
  · cases e.symm.trans h
  · cases e.symm.trans h
  · cases e.symm.trans h
  · cases e.symm.trans h
    rw [m.mnemonic_assemble, hbyte]
    exact ⟨hfit, decodeOpcodeWith_opcodeMap m⟩

/-! ### Faults -/

/-- The record of a fetch that fails is one of 60_exceptions.md rules R221 and R222. -/
theorem faultRecordLegal_of_fetch_error {s : State} {f : CoreFault} (hpc : s.pc ≤ 256) (h : fetch s = .error f) :
    faultRecordLegal (raise f s) := by
  obtain ⟨hgt, e⟩ | ⟨hle, hop, e⟩ | ⟨m, -, -, hgt, e⟩ | ⟨m, -, -, e⟩ := fetch_cases s
  · cases e.symm.trans h
    have haddr : s.pc = 256 := by omega
    exact .inl ⟨rfl, haddr, by simp [haddr]⟩
  · cases e.symm.trans h
    exact ⟨hle, hop, rfl, rfl⟩
  · cases e.symm.trans h
    have hcount := m.operandCount_le
    exact .inl ⟨rfl, rfl, by simp; omega⟩
  · cases e.symm.trans h

theorem faultRecordLegal_register {b : Byte} (h : 8 ≤ b.toNat) (s : State) :
    faultRecordLegal (raise (.outOfRangeRegister b) s) :=
  .inr ⟨rfl, h, Nat.le_of_lt_succ b.isLt⟩

theorem faultRecordLegal_divideByZero (s : State) : faultRecordLegal (raise .divideByZero s) := ⟨rfl, rfl⟩

/-! ### The invariant -/

/-- Fault entry keeps the invariant where what it records is legal. -/
theorem StateInv.raise {s : State} (hs : StateInv s) {f : CoreFault} (hf : faultRecordLegal (raise f s)) :
    StateInv (raise f s) where
  pcRange := hs.pcRange
  memWf := hs.memWf
  flagsOneHot := hs.flagsOneHot
  clearUnlessFaulted h := absurd (raise_status f s) h
  faultedRecord _ := ⟨rfl, hf⟩
  haltedAtHalt h := nomatch h

/-- HALT keeps the invariant: it stands at the pc. -/
theorem StateInv.halt {s : State} (hs : StateInv s) (hrun : s.status = .running) (hpc : s.pc ≤ 255)
    (hop : decodeOpcode (Memory.get s.mem s.pc) = some .halt) :
    StateInv (commit { halt := true, pcNext := s.pc } s) where
  pcRange := hs.pcRange
  memWf := hs.memWf
  flagsOneHot := hs.flagsOneHot
  clearUnlessFaulted _ := hs.clearUnlessFaulted (by simp [hrun])
  faultedRecord h := nomatch h
  haltedAtHalt _ := ⟨hpc, hop⟩

/-- A running machine that goes on keeps the invariant, whatever it wrote to the registers and the output, if the new
pc and the new flags are in their ranges. -/
theorem StateInv.go {s : State} (hs : StateInv s) (hrun : s.status = .running) (r : Option (Fin 8 × Byte))
    {f : Option Flags} (o : Option Byte) {p : Nat} (hp : p ≤ 256) (hf : ∀ g, f = some g → g.atMostOne) :
    StateInv (commit ⟨r, f, o, false, p⟩ s) where
  pcRange := hp
  memWf := hs.memWf
  flagsOneHot := by
    cases f with
    | none => exact hs.flagsOneHot
    | some g => exact hf g rfl
  clearUnlessFaulted _ := hs.clearUnlessFaulted (by simp [hrun])
  faultedRecord h := nomatch hrun.symm.trans h
  haltedAtHalt h := nomatch hrun.symm.trans h

theorem jumpMux_le {c : JumpCond} {s : State} {target : Byte} {n : Nat} (h : seqPc s n ≤ 256) :
    jumpMux c s target n ≤ 256 := by
  unfold jumpMux
  split
  · exact Nat.le_of_lt target.isLt
  · exact h

/-- An instruction just fetched keeps the invariant: every next pc it can choose is a byte or lies right after it. -/
theorem StateInv.exec {i : Instr} {s t : State} (hs : StateInv s) (hrun : s.status = .running) (hf : fetch s = .ok i)
    (h : exec i s = .next t) : StateInv t := by
  obtain ⟨hfit, hop⟩ := fetch_ok hf
  have hseq : seqPc s i.mnemonic.operandCount ≤ 256 := by unfold seqPc; omega
  obtain ⟨f, hfault, e⟩ | ⟨rfl, e⟩ | ⟨k, v, p, -, -, -, -, -, -, rfl, e⟩ | ⟨ra, rb, ha, hb, rfl, e⟩ |
    ⟨r, hr, rfl, e⟩ | ⟨c, r, hr, hi, e⟩ := exec_cases i s
  all_goals cases e.symm.trans h
  · obtain ⟨b, rfl, hb⟩ | ⟨rfl, -⟩ := hfault
    · exact hs.raise (faultRecordLegal_register hb s)
    · exact hs.raise (faultRecordLegal_divideByZero s)
  · exact hs.halt hrun hfit hop
  · exact hs.go hrun _ _ hseq (by simp)
  · refine hs.go hrun _ _ hseq ?_
    rintro _ ⟨⟩
    exact compareFlags_atMostOne _ _
  · exact hs.go hrun _ _ hseq (by simp)
  · have hcount : i.mnemonic.operandCount = 1 := by
      obtain ⟨-, rfl⟩ | ⟨-, rfl⟩ | ⟨-, rfl⟩ := hi
      · rfl
      · rfl
      · rfl
    rw [hcount] at hseq
    exact hs.go hrun _ _ (jumpMux_le hseq) (by simp)

theorem StateInv.step {s t : State} (hs : StateInv s) (h : step s = .next t) : StateInv t := by
  obtain ⟨hrun, ⟨f, hf, rfl⟩ | ⟨i, hf, hexec⟩⟩ := step_cases h
  · exact hs.raise (faultRecordLegal_of_fetch_error hs.pcRange hf)
  · exact hs.exec hrun hf hexec

/-- Settles O4: a failed fetch or index check records a legal fault, and what completes keeps pc and flags in range. -/
theorem stepKeepsInvariant : Obligations.StepKeepsInvariant := fun _ _ hs h => hs.step h

end Sys2Proof.Machine
end

section
/-! SUPPORT. Memory as the function of its addresses (20_memory.md section 1): canonical memories are fixed by their
bytes, and what a run of consecutive writes leaves (70_reset_and_hazards.md section 1). -/

namespace Sys2Proof.Machine

/-! ### The canonical form -/

theorem Memory.wf_tail {a : Nat} {v : Byte} {rest : Memory} (h : Memory.wf ((a, v) :: rest) = true) :
    Memory.wf rest = true := by
  obtain ⟨-, -, -, hrest⟩ := (Memory.wf_cons a v rest).1 h
  exact hrest

/-- The first entry of a canonical memory reads as its byte, which is not the byte of an unlisted address. -/
theorem Memory.get_head {a : Nat} {v : Byte} {rest : Memory} (h : Memory.wf ((a, v) :: rest) = true) :
    Memory.get ((a, v) :: rest) a = v ∧ v ≠ Memory.unlisted := by
  obtain ⟨-, hv, -, -⟩ := (Memory.wf_cons a v rest).1 h
  exact ⟨if_pos rfl, hv⟩

/-- A canonical memory reads as unlisted at an address below its first entry. -/
theorem Memory.get_below_head {a b : Nat} {v : Byte} {rest : Memory} (h : Memory.wf ((a, v) :: rest) = true)
    (hb : b < a) : Memory.get ((a, v) :: rest) b = Memory.unlisted := by
  obtain ⟨-, -, hlt, -⟩ := (Memory.wf_cons a v rest).1 h
  refine Memory.get_below _ _ fun c hc => ?_
  obtain rfl | hc := List.mem_cons.1 hc
  · exact hb
  · exact Nat.lt_trans hb (hlt c hc)

/-- Two canonical memories that read alike do not have the first entry of one below the first entry of the other. -/
theorem Memory.head_le_of_get_eq {a b : Nat} {v w : Byte} {rest rest' : Memory}
    (hm : Memory.wf ((a, v) :: rest) = true) (hm' : Memory.wf ((b, w) :: rest') = true)
    (h : ∀ x, Memory.get ((a, v) :: rest) x = Memory.get ((b, w) :: rest') x) : b ≤ a := by
  by_contra hlt
  obtain ⟨hget, hne⟩ := Memory.get_head hm
  exact hne (hget.symm.trans ((h a).trans (Memory.get_below_head hm' (by omega))))

/-- The rests of two memories with the same first entry read alike where the memories do. -/
theorem Memory.get_tail_eq {a : Nat} {v : Byte} {rest rest' : Memory} (hm : Memory.wf ((a, v) :: rest) = true)
    (hm' : Memory.wf ((a, v) :: rest') = true)
    (h : ∀ x, Memory.get ((a, v) :: rest) x = Memory.get ((a, v) :: rest') x) (x : Nat) :
    Memory.get rest x = Memory.get rest' x := by
  obtain ⟨-, -, hlt, -⟩ := (Memory.wf_cons a v rest).1 hm
  obtain ⟨-, -, hlt', -⟩ := (Memory.wf_cons a v rest').1 hm'
  by_cases hx : a = x
  · subst hx
    rw [Memory.get_below rest a hlt, Memory.get_below rest' a hlt']
  · have hget := h x
    rwa [Memory.get, Memory.get, if_neg hx, if_neg hx] at hget

theorem Memory.eq_of_get_eq {m m' : Memory} (hm : Memory.wf m = true) (hm' : Memory.wf m' = true)
    (h : ∀ a, Memory.get m a = Memory.get m' a) : m = m' := by
  induction m generalizing m' with
  | nil =>
    cases m' with
    | nil => rfl
    | cons c rest' =>
      obtain ⟨hget, hne⟩ := Memory.get_head hm'
      exact absurd (hget.symm.trans (h c.1).symm) hne
  | cons c rest ih =>
    cases m' with
    | nil =>
      obtain ⟨hget, hne⟩ := Memory.get_head hm
      exact absurd (hget.symm.trans (h c.1)) hne
    | cons d rest' =>
      obtain ⟨a, v⟩ := c
      obtain ⟨b, w⟩ := d
      obtain rfl : a = b := Nat.le_antisymm (Memory.head_le_of_get_eq hm' hm fun x => (h x).symm)
        (Memory.head_le_of_get_eq hm hm' h)
      obtain rfl : v = w := (Memory.get_head hm).1.symm.trans ((h a).trans (Memory.get_head hm').1)
      rw [ih (Memory.wf_tail hm) (Memory.wf_tail hm') (Memory.get_tail_eq hm hm' h)]

theorem Memory.set_set_same {m : Memory} {a : Nat} (v : Byte) (hm : Memory.wf m = true) (ha : a < 256) :
    Memory.set (Memory.set m a v) a v = Memory.set m a v := by
  have hset := Memory.wf_set m a v hm ha
  refine Memory.eq_of_get_eq (Memory.wf_set _ a v hset ha) hset fun x => ?_
  rw [Memory.get_set _ a v hset, Memory.get_set m a v hm]
  split
  · rfl
  · rfl

/-! ### Consecutive writes -/

/-- Below address 256, writing bytes in a row replaces the cells they fall on and keeps the others. -/
theorem get_placeBytes {vs : List Byte} {m : Memory} {a : Nat} (hm : Memory.wf m = true) (hfit : a + vs.length ≤ 256)
    (x : Nat) :
    Memory.get (placeBytes m a vs) x = if a ≤ x then vs[x - a]?.getD (Memory.get m x) else Memory.get m x := by
  induction vs generalizing m a with
  | nil => simp [placeBytes]
  | cons v vs ih =>
    rw [List.length_cons] at hfit
    have hwrite := memWrite_of_le (show a ≤ 255 by omega) m v
    simp only [placeBytes, hwrite]
    rw [ih (memWrite_wf hm hwrite) (by omega), Memory.get_set m a v hm]
    obtain hx | rfl | hx := Nat.lt_trichotomy x a
    · simp [show ¬ a ≤ x by omega, show ¬ a + 1 ≤ x by omega, show x ≠ a by omega]
    · simp
    · obtain ⟨k, rfl⟩ := Nat.exists_eq_add_of_lt hx
      simp [show a + k + 1 - (a + 1) = k by omega, show a + k + 1 - a = k + 1 by omega, show a ≤ a + k + 1 by omega,
        show a + k + 1 ≠ a by omega]

/-- The Loader places the bytes of an image that fits (70_reset_and_hazards.md rule R261). -/
theorem writeImage_of_fits {image : List Nat} {m : Memory} {a : Nat} (hfit : a + image.length ≤ 256) :
    writeImage m a image = .ok (placeBytes m a (image.map trunc8)) := by
  induction image generalizing m a with
  | nil => rfl
  | cons v vs ih =>
    rw [List.length_cons] at hfit
    have hwrite := memWrite_of_le (show a ≤ 255 by omega) m (trunc8 v)
    simp only [writeImage, List.map_cons, placeBytes, hwrite]
    exact ih (by omega)

/-- The Loader's write port reports an image that runs past address 255 (rule R262). -/
theorem writeImage_of_overrun {image : List Nat} {m : Memory} {a : Nat} (ha : a ≤ 256)
    (hover : 256 < a + image.length) : ∃ f, writeImage m a image = .error f := by
  induction image generalizing m a with
  | nil => simp only [List.length_nil] at hover; omega
  | cons v vs ih =>
    rw [List.length_cons] at hover
    by_cases hlast : a ≤ 255
    · simp only [writeImage, memWrite_of_le hlast m (trunc8 v)]
      exact ih (by omega) (by omega)
    · simp only [writeImage, memWrite_of_gt (show 255 < a by omega) m (trunc8 v)]
      exact ⟨_, rfl⟩

/-! ### The load -/

theorem load_of_legal {image : List Nat} (s : State) (hfit : image.length ≤ 256) (hbytes : ∀ v ∈ image, v ≤ 255) :
    load image s = .next { s with mem := placeBytes s.mem 0 (image.map trunc8) } := by
  have hall : image.all (fun v => decide (v ≤ 255)) = true := by simpa using hbytes
  simp only [load, hall, if_true, writeImage_of_fits (m := s.mem) (show 0 + image.length ≤ 256 by omega)]

theorem load_of_large_value {image : List Nat} {v : Nat} (s : State) (hv : v ∈ image) (hlarge : 255 < v) :
    load image s = .refused .illegalLoadImage := by
  have hall : ¬ image.all (fun v => decide (v ≤ 255)) = true := by
    simp only [List.all_eq_true, decide_eq_true_eq]
    exact fun h => Nat.not_lt.2 (h v hv) hlarge
  exact if_neg hall

theorem load_of_overrun {image : List Nat} (s : State) (hover : 256 < image.length) :
    load image s = .refused .illegalLoadImage := by
  obtain ⟨f, hf⟩ := writeImage_of_overrun (m := s.mem) (Nat.zero_le 256) (show 256 < 0 + image.length by omega)
  unfold load
  split
  · simp only [hf]
  · rfl

/-! ### The statements, settled -/

/-- Settles O9: the first entries agree, for neither lies below the other, and then so do the rests. -/
theorem canonicalMemoryIsFixedByItsBytes : Obligations.CanonicalMemoryIsFixedByItsBytes :=
  fun _ _ hm hm' h => Memory.eq_of_get_eq hm hm' h

/-- Settles O8: a write through the port is a `Memory.set` of a legal address. -/
theorem memoryWriteTouchesOneCell : Obligations.MemoryWriteTouchesOneCell := by
  intro m a v m' hm h
  obtain ⟨ha, rfl⟩ := memWrite_ok h
  refine ⟨memWrite_wf hm h, Memory.get_set m a v hm, ?_⟩
  rw [memWrite_of_le ha, Memory.set_set_same v hm (by omega)]

/-- Settles O5: a legal image is placed from address 0; of any other the Loader sees a value above 255 or a write past
address 255. -/
theorem loadWritesImageOrRefuses : Obligations.LoadWritesImageOrRefuses := by
  refine ⟨fun image s hm hfit hbytes => ?_, fun image s hbad => ?_⟩
  · refine ⟨_, load_of_legal s hfit hbytes, placeBytes_wf _ _ _ hm, fun a => ?_⟩
    rw [get_placeBytes hm (by simpa using hfit)]
    cases hv : image[a]? with
    | none => simp [hv]
    | some v => simp [hv, trunc8]
  · obtain hover | ⟨v, hv, hlarge⟩ := hbad
    · exact load_of_overrun s hover
    · exact load_of_large_value s hv hlarge

end Sys2Proof.Machine
end

section
/-! SUPPORT. The block diagram (40_fetch_decode_execute.md section 2): what it gives once the index check has passed,
that the instruction meanings are its outcomes, and so what an instruction may write. -/

namespace Sys2Proof.Machine

/-! ### The index check -/

theorem checkSlots_cons_legal {b1 b2 : Byte} {k : Nat} (ks : List Nat) (h : (slotByte b1 b2 k).toNat < 8) :
    checkSlots b1 b2 (k :: ks) = checkSlots b1 b2 ks := by
  have hindex := checkIndex_ok h
  unfold slotByte at hindex
  simp only [checkSlots, hindex]

theorem checkSlots_cons_illegal {b1 b2 : Byte} {k : Nat} (ks : List Nat) (h : 8 ≤ (slotByte b1 b2 k).toNat) :
    checkSlots b1 b2 (k :: ks) = .error (.outOfRangeRegister (slotByte b1 b2 k)) := by
  have hindex := checkIndex_error h
  unfold slotByte at hindex ⊢
  simp only [checkSlots, hindex]

/-- The check reports the first slot with a byte above 7, in the order of the slots (rule R106), and passes where there
is none. -/
theorem checkSlots_cases (b1 b2 : Byte) (slots : List Nat) :
    (∃ b, (slots.map (slotByte b1 b2)).find? (fun b => decide (7 < b.toNat)) = some b ∧
      checkSlots b1 b2 slots = .error (.outOfRangeRegister b)) ∨
    ((slots.map (slotByte b1 b2)).find? (fun b => decide (7 < b.toNat)) = none ∧
      checkSlots b1 b2 slots = .ok ()) := by
  induction slots with
  | nil => exact .inr ⟨rfl, rfl⟩
  | cons k ks ih =>
    by_cases hk : 7 < (slotByte b1 b2 k).toNat
    · exact .inl ⟨_, List.find?_cons_of_pos (decide_eq_true hk), checkSlots_cons_illegal ks hk⟩
    · rw [checkSlots_cons_legal ks (by omega), List.map_cons, List.find?_cons_of_neg (by simpa using hk)]
      exact ih

theorem checkSlots_of_find_some {b1 b2 b : Byte} {slots : List Nat}
    (h : (slots.map (slotByte b1 b2)).find? (fun b => decide (7 < b.toNat)) = some b) :
    checkSlots b1 b2 slots = .error (.outOfRangeRegister b) := by
  obtain ⟨b', hfind, e⟩ | ⟨hfind, -⟩ := checkSlots_cases b1 b2 slots
  · cases hfind.symm.trans h
    exact e
  · cases hfind.symm.trans h

theorem checkSlots_of_find_none {b1 b2 : Byte} {slots : List Nat}
    (h : (slots.map (slotByte b1 b2)).find? (fun b => decide (7 < b.toNat)) = none) :
    checkSlots b1 b2 slots = .ok () := by
  obtain ⟨b', hfind, -⟩ | ⟨-, e⟩ := checkSlots_cases b1 b2 slots
  · cases hfind.symm.trans h
  · exact e

theorem datapath_of_check_error {cw : ControlWord} {b1 b2 : Byte} {f : CoreFault}
    (h : checkSlots b1 b2 cw.regslots = .error f) (s : State) : datapath cw b1 b2 s = .error f := by
  simp only [datapath, h]

/-! ### Past the check -/

/-- The writes of the block diagram with `a` and `b` on the read ports, `imm` on the wire of operand byte 2, and `i` as
the register the write port is given. -/
def drivenWrites (cw : ControlWord) (i : Fin 8) (a b imm : Byte) (s : State) : Effect where
  regWrite := if cw.regWe then some (i, if cw.cls = .ldi then imm else cw.aluOp.elim 0 (aluResult · a b)) else none
  flagsWrite := if cw.flagsWe then some (compareFlags a b) else none
  out := if cw.outEn then some a else none
  halt := cw.halt
  pcNext := if cw.halt then s.pc else jumpMux cw.jcond s a cw.n

/-- Those writes, unless `alu_handlers` asserts `div0` (44_alu.md rule R180). -/
def drivenEffect (cw : ControlWord) (i : Fin 8) (a b imm : Byte) (s : State) : Except CoreFault Effect :=
  if cw.aluOp.elim false (aluDiv0 · b) then .error .divideByZero else .ok (drivenWrites cw i a b imm s)

theorem drivenEffect_cases (cw : ControlWord) (i : Fin 8) (a b imm : Byte) (s : State) :
    (cw.aluOp = some .mod ∧ b = 0 ∧ drivenEffect cw i a b imm s = .error .divideByZero) ∨
    (¬(cw.aluOp = some .mod ∧ b = 0) ∧ drivenEffect cw i a b imm s = .ok (drivenWrites cw i a b imm s)) := by
  have hdiv : cw.aluOp.elim false (aluDiv0 · b) = true ↔ cw.aluOp = some .mod ∧ b = 0 := by
    cases cw.aluOp with
    | none => simp
    | some op => simp [aluDiv0]
  by_cases h : cw.aluOp = some .mod ∧ b = 0
  · exact .inl ⟨h.1, h.2, if_pos (hdiv.2 h)⟩
  · exact .inr ⟨h, if_neg fun hd => h (hdiv.1 hd)⟩

theorem regWritePort_legal {b : Byte} (h : b.toNat < 8) (we : Bool) (v : Byte) :
    regWritePort we b v = .ok (if we then some (⟨b.toNat, h⟩, v) else none) := by
  cases we with
  | false => exact regWritePort_off b v
  | true => exact regWritePort_ok h v

/-- With one register operand the first read port is driven, the second carries 0. -/
theorem datapath_one {cw : ControlWord} {b1 : Byte} (hslots : cw.regslots = [1]) (hformat : cw.format ≠ .f2rr)
    (h1 : b1.toNat < 8) (b2 : Byte) (s : State) :
    datapath cw b1 b2 s = drivenEffect cw ⟨b1.toNat, h1⟩ (getReg s ⟨b1.toNat, h1⟩) 0 b2 s := by
  obtain ⟨n, format, cls, aluOp, jcond, regslots, regWe, flagsWe, outEn, halt⟩ := cw
  dsimp only at hslots hformat
  subst hslots
  have hcheck : checkSlots b1 b2 [1] = .ok () := checkSlots_cons_legal (k := 1) [] h1
  cases aluOp <;>
    simp [datapath, hcheck, drivenRead, hformat, regReadPort_ok h1, regWritePort_legal h1, drivenEffect, drivenWrites]

/-- With two both are driven. -/
theorem datapath_two {cw : ControlWord} {b1 b2 : Byte} (hslots : cw.regslots = [1, 2]) (hformat : cw.format = .f2rr)
    (h1 : b1.toNat < 8) (h2 : b2.toNat < 8) (s : State) :
    datapath cw b1 b2 s =
      drivenEffect cw ⟨b1.toNat, h1⟩ (getReg s ⟨b1.toNat, h1⟩) (getReg s ⟨b2.toNat, h2⟩) b2 s := by
  obtain ⟨n, format, cls, aluOp, jcond, regslots, regWe, flagsWe, outEn, halt⟩ := cw
  dsimp only at hslots hformat
  subst hslots hformat
  have hcheck : checkSlots b1 b2 [1, 2] = .ok () :=
    (checkSlots_cons_legal (k := 1) [2] h1).trans (checkSlots_cons_legal (k := 2) [] h2)
  cases aluOp <;>
    simp [datapath, hcheck, drivenRead, regReadPort_ok h1, regReadPort_ok h2, regWritePort_legal h1, drivenEffect,
      drivenWrites]

/-! ### The instruction meanings are the block diagram's -/

theorem withReg_eq_datapath {cw : ControlWord} (hslots : cw.regslots = [1]) (hformat : cw.format ≠ .f2rr)
    (r b2 : Byte) (s : State) :
    withReg r s (fun i => drivenEffect cw i (getReg s i) 0 b2 s) = complete s (datapath cw r b2 s) := by
  obtain ⟨h, e⟩ | ⟨h, e⟩ := withReg_cases r s (fun i => drivenEffect cw i (getReg s i) 0 b2 s)
  · rw [e, datapath_one hslots hformat h]
  · rw [e, datapath_of_check_error (hslots ▸ checkSlots_cons_illegal (k := 1) [] h)]
    rfl

theorem withRegs_eq_datapath {cw : ControlWord} (hslots : cw.regslots = [1, 2]) (hformat : cw.format = .f2rr)
    (ra rb : Byte) (s : State) :
    withRegs ra rb s (fun i j => drivenEffect cw i (getReg s i) (getReg s j) rb s) =
      complete s (datapath cw ra rb s) := by
  obtain ⟨ha, hb, e⟩ | ⟨ha, e⟩ | ⟨ha, hb, e⟩ :=
    withRegs_cases ra rb s (fun i j => drivenEffect cw i (getReg s i) (getReg s j) rb s)
  · rw [e, datapath_two hslots hformat ha hb]
  · rw [e, datapath_of_check_error (hslots ▸ checkSlots_cons_illegal (k := 1) [2] ha)]
    rfl
  · have hcheck : checkSlots ra rb [1, 2] = .error (.outOfRangeRegister rb) :=
      (checkSlots_cons_legal (k := 1) [2] ha).trans (checkSlots_cons_illegal (k := 2) [] hb)
    rw [e, datapath_of_check_error (hslots ▸ hcheck)]
    rfl

/-- Settles O54: an instruction's handler is `drivenEffect` at its own control word. -/
theorem meaningsMatchTheDatapath : Obligations.MeaningsMatchTheDatapath := by
  intro i s
  cases i with
  | halt => rfl
  | ldi r imm => exact withReg_eq_datapath (cw := Mnemonic.ldi.controlWord) rfl (by decide) r imm s
  | prn r => exact withReg_eq_datapath (cw := Mnemonic.prn.controlWord) rfl (by decide) r 0 s
  | jmp r => exact withReg_eq_datapath (cw := Mnemonic.jmp.controlWord) rfl (by decide) r 0 s
  | jeq r => exact withReg_eq_datapath (cw := Mnemonic.jeq.controlWord) rfl (by decide) r 0 s
  | jne r => exact withReg_eq_datapath (cw := Mnemonic.jne.controlWord) rfl (by decide) r 0 s
  | cmp ra rb => exact withRegs_eq_datapath (cw := Mnemonic.cmp.controlWord) rfl rfl ra rb s
  | and ra rb => exact withRegs_eq_datapath (cw := Mnemonic.and.controlWord) rfl rfl ra rb s
  | or ra rb => exact withRegs_eq_datapath (cw := Mnemonic.or.controlWord) rfl rfl ra rb s
  | not r => exact withReg_eq_datapath (cw := Mnemonic.not.controlWord) rfl (by decide) r 0 s
  | shl ra rb => exact withRegs_eq_datapath (cw := Mnemonic.shl.controlWord) rfl rfl ra rb s
  | shr ra rb => exact withRegs_eq_datapath (cw := Mnemonic.shr.controlWord) rfl rfl ra rb s
  | mod ra rb => exact withRegs_eq_datapath (cw := Mnemonic.mod.controlWord) rfl rfl ra rb s
  | xor ra rb => exact withRegs_eq_datapath (cw := Mnemonic.xor.controlWord) rfl rfl ra rb s

theorem exec_eq_datapath (i : Instr) (s : State) :
    exec i s = complete s (datapath i.mnemonic.controlWord (operandWires i).1 (operandWires i).2 s) :=
  meaningsMatchTheDatapath i s

/-! ### What a control word lets the block diagram do -/

/-- The three shapes of the rows of rule R104: no register operand, one, or the two of format F2RR. -/
theorem slots_cases (m : Mnemonic) :
    m = .halt ∨ (m ≠ .mod ∧ m.controlWord.regslots = [1] ∧ m.controlWord.format ≠ .f2rr) ∨
      (m.controlWord.regslots = [1, 2] ∧ m.controlWord.format = .f2rr) := by
  cases m <;> decide

theorem slotByte_lt_of_checkSlots_ok {b1 b2 : Byte} {slots : List Nat} (h : checkSlots b1 b2 slots = .ok ()) :
    ∀ k ∈ slots, (slotByte b1 b2 k).toNat < 8 := by
  obtain ⟨b, -, e⟩ | ⟨hfind, -⟩ := checkSlots_cases b1 b2 slots
  · cases e.symm.trans h
  · intro k hk
    have := List.find?_eq_none.1 hfind _ (List.mem_map_of_mem hk)
    simp only [decide_eq_true_eq] at this
    omega

/-- Past the check the ports answer: the write port has the register of operand byte 1, and MOD's divisor is the
register of operand byte 2 (rules R106, R115). -/
theorem datapath_of_checked {m : Mnemonic} {b1 b2 : Byte} (s : State)
    (h : checkSlots b1 b2 m.controlWord.regslots = .ok ()) :
    ∃ i a b, datapath m.controlWord b1 b2 s = drivenEffect m.controlWord i a b b2 s ∧
      (m.controlWord.regWe = true → i.val = b1.toNat) ∧ (m = .mod → s.regs[b2.toNat]? = some b) := by
  have hlt := slotByte_lt_of_checkSlots_ok h
  obtain rfl | ⟨hmod, hslots, hformat⟩ | ⟨hslots, hformat⟩ := slots_cases m
  · exact ⟨0, 0, 0, rfl, nofun, nofun⟩
  · have h1 : b1.toNat < 8 := hlt 1 (by simp [hslots])
    exact ⟨_, _, _, datapath_one hslots hformat h1 b2 s, fun _ => rfl, fun hm => absurd hm hmod⟩
  · have h1 : b1.toNat < 8 := hlt 1 (by simp [hslots])
    have h2 : b2.toNat < 8 := hlt 2 (by simp [hslots])
    exact ⟨_, _, _, datapath_two hslots hformat h1 h2 s, fun _ => rfl, fun _ => Vector.getElem?_eq_getElem h2⟩

theorem aluOp_eq_mod_iff (m : Mnemonic) : m.controlWord.aluOp = some .mod ↔ m = .mod := by
  cases m <;> decide

/-- Past the check only MOD by zero raises. -/
theorem datapath_checked_cases {m : Mnemonic} {b1 b2 : Byte} (s : State)
    (h : checkSlots b1 b2 m.controlWord.regslots = .ok ()) :
    (m = .mod ∧ s.regs[b2.toNat]? = some 0 ∧ datapath m.controlWord b1 b2 s = .error .divideByZero) ∨
    (¬(m = .mod ∧ s.regs[b2.toNat]? = some 0) ∧ ∃ eff, datapath m.controlWord b1 b2 s = .ok eff) := by
  obtain ⟨i, a, b, e, -, hb⟩ := datapath_of_checked s h
  rw [e]
  obtain ⟨hop, rfl, e'⟩ | ⟨hne, e'⟩ := drivenEffect_cases m.controlWord i a b b2 s
  · have hm := (aluOp_eq_mod_iff m).1 hop
    exact .inl ⟨hm, hb hm, e'⟩
  · refine .inr ⟨fun ⟨hm, hzero⟩ => hne ⟨(aluOp_eq_mod_iff m).2 hm, ?_⟩, _, e'⟩
    exact Option.some.inj ((hb hm).symm.trans hzero)

/-- The writes an effect has are ones the control word enables, the register write at the index in operand byte 1. -/
structure Effect.AllowedBy (eff : Effect) (cw : ControlWord) (b1 : Byte) : Prop where
  reg : ∀ k v, eff.regWrite = some (k, v) → cw.regWe = true ∧ k.val = b1.toNat
  flags : ∀ f, eff.flagsWrite = some f → cw.flagsWe = true
  out : ∀ v, eff.out = some v → cw.outEn = true
  halt : eff.halt = cw.halt

theorem drivenWrites_allowed {cw : ControlWord} {i : Fin 8} {b1 : Byte} (hi : cw.regWe = true → i.val = b1.toNat)
    (a b imm : Byte) (s : State) : (drivenWrites cw i a b imm s).AllowedBy cw b1 where
  reg k v h := by
    unfold drivenWrites at h
    cases hwe : cw.regWe with
    | true =>
      simp only [hwe, if_true, Option.some.injEq, Prod.mk.injEq] at h
      exact ⟨rfl, h.1 ▸ hi hwe⟩
    | false => simp [hwe] at h
  flags f h := by
    unfold drivenWrites at h
    by_contra hwe
    simp [hwe] at h
  out v h := by
    unfold drivenWrites at h
    by_contra hen
    simp [hen] at h
  halt := rfl

theorem datapath_allowed {m : Mnemonic} {b1 b2 : Byte} {s : State} {eff : Effect}
    (h : datapath m.controlWord b1 b2 s = .ok eff) : eff.AllowedBy m.controlWord b1 := by
  have hcheck : checkSlots b1 b2 m.controlWord.regslots = .ok () := by
    obtain ⟨b, -, e⟩ | ⟨-, e⟩ := checkSlots_cases b1 b2 m.controlWord.regslots
    · cases (datapath_of_check_error e s).symm.trans h
    · exact e
  obtain ⟨i, a, b, e, hi, -⟩ := datapath_of_checked s hcheck
  obtain ⟨-, -, e'⟩ | ⟨-, e'⟩ := drivenEffect_cases m.controlWord i a b b2 s
  · cases (e.trans e').symm.trans h
  · cases (e.trans e').symm.trans h
    exact drivenWrites_allowed hi a b b2 s

/-- Everything an instruction can end in: a fault of the core, or a commit of writes its control word enables. -/
theorem exec_next_cases {i : Instr} {s t : State} (h : exec i s = .next t) :
    (∃ f, t = raise f s) ∨
    (∃ eff, t = commit eff s ∧ eff.AllowedBy i.mnemonic.controlWord (operandWires i).1) := by
  rw [exec_eq_datapath] at h
  obtain ⟨f, -, e⟩ | ⟨eff, hres, e⟩ := complete_next s _
  · cases e.symm.trans h
    exact .inl ⟨f, rfl⟩
  · cases e.symm.trans h
    exact .inr ⟨eff, rfl, datapath_allowed hres⟩

/-! ### Register indices above 7 -/

theorem regOperands_eq_map_slotByte (i : Instr) :
    i.regOperands = i.mnemonic.controlWord.regslots.map (slotByte (operandWires i).1 (operandWires i).2) := by
  cases i <;> rfl

theorem exec_of_illegal {i : Instr} {b : Byte} (h : i.regOperands.find? (fun b => decide (7 < b.toNat)) = some b)
    (s : State) : exec i s = .next (raise (.outOfRangeRegister b) s) := by
  rw [regOperands_eq_map_slotByte] at h
  rw [exec_eq_datapath, datapath_of_check_error (checkSlots_of_find_some h)]
  rfl

/-- With legal indices an instruction completes, but for MOD by zero. -/
theorem exec_of_legal {i : Instr} (h : i.regOperands.find? (fun b => decide (7 < b.toNat)) = none) (s : State) :
    (i.mnemonic = .mod ∧ s.regs[(operandWires i).2.toNat]? = some 0 ∧ exec i s = .next (raise .divideByZero s)) ∨
    (¬(i.mnemonic = .mod ∧ s.regs[(operandWires i).2.toNat]? = some 0) ∧ ∃ eff, exec i s = .next (commit eff s)) := by
  rw [regOperands_eq_map_slotByte] at h
  rw [exec_eq_datapath]
  obtain ⟨hm, hzero, e⟩ | ⟨hne, eff, e⟩ := datapath_checked_cases s (checkSlots_of_find_none h)
  · exact .inl ⟨hm, hzero, by rw [e]; rfl⟩
  · exact .inr ⟨hne, eff, by rw [e]; rfl⟩

/-- Settles O45: the check of the slots is the search for the first illegal operand, and well-formed means there is
none. -/
theorem illegalIndexFaults : Obligations.IllegalIndexFaults := by
  refine ⟨fun i s b h => exec_of_illegal h s, fun i => ?_⟩
  simp only [Instr.wellFormed, List.all_eq_true, List.find?_eq_none, decide_eq_true_eq, Nat.not_lt]

/-! ### The ports of the register file -/

/-- Settles O57: the ports on either side of index 7, a read after the commit of a write, and the block diagram past the
check. -/
theorem registerPortsReportOutOfRange : Obligations.RegisterPortsReportOutOfRange := by
  refine ⟨fun s b h => regReadPort_ok h s, fun s b h => regReadPort_error h s, fun s b v hb p => ?_,
    fun b v h => regWritePort_error h v, regWritePort_off, fun m b1 b2 s h => ?_⟩
  · refine ⟨_, regWritePort_ok hb v, fun c hc => ?_⟩
    rw [regReadPort_ok hc, regReadPort_ok hc]
    by_cases hcb : c = b
    · subst hcb
      simp [getReg]
    · have hne : b.toNat ≠ c.toNat := fun e => hcb (BitVec.eq_of_toNat_eq e.symm)
      simp [getReg, hcb, hne]
  · obtain ⟨hm, -, e⟩ | ⟨-, heff⟩ := datapath_checked_cases s h
    · exact .inr ⟨hm, e⟩
    · exact .inl heff

end Sys2Proof.Machine
end

section
/-! SUPPORT. The frames of the instructions (10_state.md sections 1 and 3): what is not enabled in its control word an
instruction leaves as it was. -/

namespace Sys2Proof.Machine

/-! ### The frame of any instruction -/

section
variable {i : Instr} {s t : State} (h : exec i s = .next t)
include h

theorem exec_mem : t.mem = s.mem := by
  rw [exec_eq_datapath] at h
  exact complete_mem h

theorem exec_getReg_of_ne {k : Fin 8} (hk : k.val ≠ (operandWires i).1.toNat) : getReg t k = getReg s k := by
  obtain ⟨f, rfl⟩ | ⟨⟨regWrite, flagsWrite, out, halt, pcNext⟩, rfl, hallow⟩ := exec_next_cases h
  · rfl
  · cases regWrite with
    | none => rfl
    | some w =>
      obtain ⟨j, v⟩ := w
      have hne : j.val ≠ k.val := fun e => hk (e ▸ (hallow.reg j v rfl).2)
      simp [getReg, hne]

theorem exec_regs_of_regWe (hwe : i.mnemonic.controlWord.regWe = false) : t.regs = s.regs := by
  obtain ⟨f, rfl⟩ | ⟨⟨regWrite, flagsWrite, out, halt, pcNext⟩, rfl, hallow⟩ := exec_next_cases h
  · rfl
  · cases regWrite with
    | none => rfl
    | some w => cases hwe.symm.trans (hallow.reg w.1 w.2 rfl).1

theorem exec_flags_of_flagsWe (hwe : i.mnemonic.controlWord.flagsWe = false) : t.flags = s.flags := by
  obtain ⟨f, rfl⟩ | ⟨⟨regWrite, flagsWrite, out, halt, pcNext⟩, rfl, hallow⟩ := exec_next_cases h
  · rfl
  · cases flagsWrite with
    | none => rfl
    | some f => cases hwe.symm.trans (hallow.flags f rfl)

theorem exec_out_of_outEn (hen : i.mnemonic.controlWord.outEn = false) : t.out = s.out := by
  obtain ⟨f, rfl⟩ | ⟨⟨regWrite, flagsWrite, out, halt, pcNext⟩, rfl, hallow⟩ := exec_next_cases h
  · rfl
  · cases out with
    | none => rfl
    | some v => cases hen.symm.trans (hallow.out v rfl)

theorem exec_status_of_halt (hhalt : i.mnemonic.controlWord.halt = false) (hfault : t.status ≠ .faulted) :
    t.status = s.status := by
  obtain ⟨f, rfl⟩ | ⟨⟨regWrite, flagsWrite, out, halt, pcNext⟩, rfl, hallow⟩ := exec_next_cases h
  · exact absurd (raise_status f s) hfault
  · obtain rfl : halt = false := hallow.halt.trans hhalt
    rfl

/-- A fault record is written by fault entry alone. -/
theorem exec_fault_record (hfault : t.status ≠ .faulted) :
    t.cause = s.cause ∧ t.faultPc = s.faultPc ∧ t.faultKind = s.faultKind ∧ t.faultValue = s.faultValue := by
  obtain ⟨f, rfl⟩ | ⟨eff, rfl, -⟩ := exec_next_cases h
  · exact absurd (raise_status f s) hfault
  · exact ⟨rfl, rfl, rfl, rfl⟩

/-- An instruction that writes neither register, flag nor output and does not halt writes the pc alone. -/
theorem exec_eq_with_pc (hreg : i.mnemonic.controlWord.regWe = false) (hflags : i.mnemonic.controlWord.flagsWe = false)
    (hout : i.mnemonic.controlWord.outEn = false) (hhalt : i.mnemonic.controlWord.halt = false)
    (hfault : t.status ≠ .faulted) : t = { s with pc := t.pc } := by
  have hstatus := exec_status_of_halt h hhalt hfault
  have hregs := exec_regs_of_regWe h hreg
  have hfs := exec_flags_of_flagsWe h hflags
  have ho := exec_out_of_outEn h hout
  have hm := exec_mem h
  obtain ⟨hcause, hfaultPc, hkind, hvalue⟩ := exec_fault_record h hfault
  obtain ⟨regs, pc, flags, mem, out, status, cause, faultPc, faultKind, faultValue⟩ := t
  dsimp only at *
  subst hstatus hregs hfs ho hm hcause hfaultPc hkind hvalue
  rfl

end

/-! ### The statements, settled -/

/-- Settles O47: each of the eight has a control word that enables the register write alone, at operand byte 1. -/
theorem frameOfRegisterWriters : Obligations.FrameOfRegisterWriters := by
  intro ra b s t i hi h
  obtain ⟨hdest, hflags, hout, hhalt⟩ : (operandWires i).1 = ra ∧ i.mnemonic.controlWord.flagsWe = false ∧
      i.mnemonic.controlWord.outEn = false ∧ i.mnemonic.controlWord.halt = false := by
    revert i
    simp [operandWires, Instr.operands, Instr.mnemonic, Mnemonic.controlWord]
  refine ⟨fun k hk => exec_getReg_of_ne h (hdest ▸ hk), exec_flags_of_flagsWe h hflags, exec_out_of_outEn h hout,
    fun a => by rw [exec_mem h], fun hfault => ⟨exec_status_of_halt h hhalt hfault, exec_fault_record h hfault⟩⟩

/-- Settles O48: of the three only CMP's control word enables the flags, only PRN's the output and only HALT's the
halt. -/
theorem frameOfCmpPrnHalt : Obligations.FrameOfCmpPrnHalt := by
  intro ra rb s t i hi h
  obtain ⟨hreg, hflags, hout, hhalt⟩ : i.mnemonic.controlWord.regWe = false ∧
      (i ≠ .cmp ra rb → i.mnemonic.controlWord.flagsWe = false) ∧
      (i ≠ .prn ra → i.mnemonic.controlWord.outEn = false) ∧
      (i ≠ .halt → i.mnemonic.controlWord.halt = false) := by
    revert i
    simp [Instr.mnemonic, Mnemonic.controlWord]
  refine ⟨exec_regs_of_regWe h hreg, fun a => by rw [exec_mem h], fun hne => exec_flags_of_flagsWe h (hflags hne),
    fun hne => exec_out_of_outEn h (hout hne), ?_,
    fun hfault => ⟨fun hne => exec_status_of_halt h (hhalt hne) hfault, exec_fault_record h hfault⟩⟩
  rintro rfl
  cases h
  rfl

/-- Settles O49: the control word of a jump enables none of the writes. -/
theorem frameOfJumps : Obligations.FrameOfJumps := by
  intro r s t i hi h
  obtain ⟨hreg, hflags, hout, hhalt⟩ : i.mnemonic.controlWord.regWe = false ∧
      i.mnemonic.controlWord.flagsWe = false ∧ i.mnemonic.controlWord.outEn = false ∧
      i.mnemonic.controlWord.halt = false := by
    revert i
    simp [Instr.mnemonic, Mnemonic.controlWord]
  exact ⟨exec_regs_of_regWe h hreg, exec_flags_of_flagsWe h hflags, exec_out_of_outEn h hout,
    fun a => by rw [exec_mem h], exec_eq_with_pc h hreg hflags hout hhalt⟩

end Sys2Proof.Machine
end

section
/-! SUPPORT. The step as a whole (40_fetch_decode_execute.md section 1, 60_exceptions.md): when it is enabled, which
fault it reports, and how much it writes. -/

namespace Sys2Proof.Machine

/-! ### A step and its fetch window -/

/-- Below address 256 the window holds the byte at the pc and the one or two after it that have a cell. -/
theorem fetchWindow_eq {s : State} (h : s.pc ≤ 255) :
    fetchWindow s = Memory.get s.mem s.pc ::
      [Memory.get s.mem (s.pc + 1), Memory.get s.mem (s.pc + 2)].take (255 - s.pc) := by
  obtain hpc | hpc | hpc : s.pc = 255 ∨ s.pc = 254 ∨ s.pc ≤ 253 := by omega
  · simp [fetchWindow, List.range_succ, hpc]
  · simp [fetchWindow, List.range_succ, hpc]
  · have h2 : 2 ≤ 255 - s.pc := by omega
    simp [fetchWindow, List.range_succ, List.take_of_length_le, h, h2, show s.pc + 1 ≤ 255 by omega,
      show s.pc + 2 ≤ 255 by omega]

theorem fetchWindow_of_pc_gt {s : State} (h : 255 < s.pc) : fetchWindow s = [] := by
  have hk : ∀ k, ¬ s.pc + k ≤ 255 := fun k => by omega
  simp [fetchWindow, hk]

/-- The fetch reads what the decoder reads from the window. -/
theorem fetch_of_decode {s : State} {i : Instr} {rest : List Byte} (h : decode (fetchWindow s) = .ok (i, rest)) :
    fetch s = .ok i := by
  by_cases hpc : s.pc ≤ 255
  swap
  · rw [fetchWindow_of_pc_gt (by omega)] at h
    cases h
  rw [fetchWindow_eq hpc] at h
  obtain ⟨m, b1, b2, hop, rfl, hbytes⟩ := decodeWith_ok_cases h
  have hbyte := (decodeOpcodeWith_some hop).symm
  rw [hbyte, operandCount_opcodeMap] at hbytes
  have hcount := m.operandCount_le
  have hfit : s.pc + m.operandCount ≤ 255 := by
    have hlen := congrArg List.length hbytes
    simp only [List.length_append, List.length_take, List.length_cons, List.length_nil] at hlen
    omega
  obtain ⟨hgt, -⟩ | ⟨-, hf⟩ := fetch_opcode_cases hpc hbyte
  · omega
  · rw [hf]
    congr 1
    refine Instr.eq_of_mnemonic_of_operands (by simp) ?_
    have htake := congrArg (List.take m.operandCount) hbytes
    rw [List.take_take, Nat.min_eq_left (by omega), List.take_append_of_le_length (by simp; omega), List.take_take,
      Nat.min_self] at htake
    simpa using htake

/-! ### When a step is enabled -/

/-- A step of a running machine is the end of some handler or fault. -/
theorem step_eq_complete {s : State} (hs : s.status = .running) : ∃ res, step s = complete s res := by
  obtain ⟨res, e, -⟩ := step_same_result hs hs rfl rfl rfl rfl
  exact ⟨res, e⟩

theorem step_next_of_running {s : State} (hs : s.status = .running) : ∃ t, step s = .next t := by
  obtain ⟨res, e⟩ := step_eq_complete hs
  obtain ⟨f, -, e'⟩ | ⟨eff, -, e'⟩ := complete_next s res
  · exact ⟨_, e.trans e'⟩
  · exact ⟨_, e.trans e'⟩

theorem step_of_not_running {s : State} (hs : s.status ≠ .running) : step s = .fault .stepNotEnabled := by
  unfold step
  cases h : s.status with
  | running => exact absurd h hs
  | halted => rfl
  | faulted => rfl

/-! ### How much a step writes -/

/-- Everything a step can end in: a fault of the core, or a commit of writes that the control word of the fetched
instruction enables. -/
theorem step_next_cases {s t : State} (h : step s = .next t) :
    (∃ f, t = raise f s) ∨
    (∃ i eff, fetch s = .ok i ∧ t = commit eff s ∧ eff.AllowedBy i.mnemonic.controlWord (operandWires i).1) := by
  obtain ⟨-, ⟨f, -, rfl⟩ | ⟨i, hf, hexec⟩⟩ := step_cases h
  · exact .inl ⟨f, rfl⟩
  · obtain ⟨f, rfl⟩ | ⟨eff, rfl, hallow⟩ := exec_next_cases hexec
    · exact .inl ⟨f, rfl⟩
    · exact .inr ⟨i, eff, hf, rfl, hallow⟩

/-- No row of rule R104 enables two of the three writes. -/
theorem controlWord_enables_one (m : Mnemonic) :
    (m.controlWord.flagsWe = false ∧ m.controlWord.outEn = false) ∨
    (m.controlWord.regWe = false ∧ m.controlWord.outEn = false) ∨
    (m.controlWord.regWe = false ∧ m.controlWord.flagsWe = false) := by
  cases m <;> decide

/-- So no effect has two of them (rule R108). -/
theorem Effect.AllowedBy.writes_one {regWrite : Option (Fin 8 × Byte)} {flagsWrite : Option Flags} {out : Option Byte}
    {halt : Bool} {pcNext : Nat} {m : Mnemonic} {b1 : Byte}
    (h : Effect.AllowedBy ⟨regWrite, flagsWrite, out, halt, pcNext⟩ m.controlWord b1) :
    (flagsWrite = none ∧ out = none) ∨ (regWrite = none ∧ out = none) ∨ (regWrite = none ∧ flagsWrite = none) := by
  have hreg : m.controlWord.regWe = false → regWrite = none := fun hwe =>
    Option.eq_none_iff_forall_ne_some.2 fun w e => by cases hwe.symm.trans (h.reg w.1 w.2 e).1
  have hflags : m.controlWord.flagsWe = false → flagsWrite = none := fun hwe =>
    Option.eq_none_iff_forall_ne_some.2 fun f e => by cases hwe.symm.trans (h.flags f e)
  have hout : m.controlWord.outEn = false → out = none := fun hen =>
    Option.eq_none_iff_forall_ne_some.2 fun v e => by cases hen.symm.trans (h.out v e)
  obtain ⟨h1, h2⟩ | ⟨h1, h2⟩ | ⟨h1, h2⟩ := controlWord_enables_one m
  · exact .inl ⟨hflags h1, hout h2⟩
  · exact .inr (.inl ⟨hreg h1, hout h2⟩)
  · exact .inr (.inr ⟨hreg h1, hflags h2⟩)

/-- So a commit changes one of the register file, the flags and the output at most. -/
theorem commit_changes_one {eff : Effect} {m : Mnemonic} {b1 : Byte} (h : eff.AllowedBy m.controlWord b1) (s : State) :
    ((commit eff s).regs ≠ s.regs → (commit eff s).flags = s.flags ∧ (commit eff s).out = s.out) ∧
    ((commit eff s).flags ≠ s.flags → (commit eff s).regs = s.regs ∧ (commit eff s).out = s.out) ∧
    ((commit eff s).out ≠ s.out → (commit eff s).regs = s.regs ∧ (commit eff s).flags = s.flags) := by
  obtain ⟨regWrite, flagsWrite, out, halt, pcNext⟩ := eff
  obtain ⟨rfl, rfl⟩ | ⟨rfl, rfl⟩ | ⟨rfl, rfl⟩ := h.writes_one
  · simp
  · simp
  · simp

/-- A commit writes one register at most. -/
theorem commit_getReg_of_ne (eff : Effect) (s : State) :
    ∃ k : Fin 8, ∀ j : Fin 8, j ≠ k → getReg (commit eff s) j = getReg s j := by
  obtain ⟨regWrite, flagsWrite, out, halt, pcNext⟩ := eff
  cases regWrite with
  | none => exact ⟨0, fun _ _ => rfl⟩
  | some w =>
    obtain ⟨k, v⟩ := w
    refine ⟨k, fun j hj => ?_⟩
    have hne : k.val ≠ j.val := fun e => hj (Fin.ext e.symm)
    simp [getReg, hne]

theorem commit_pc_of_status_ne {eff : Effect} {s : State} (h : (commit eff s).status ≠ s.status) :
    (commit eff s).pc = s.pc := by
  obtain ⟨regWrite, flagsWrite, out, halt, pcNext⟩ := eff
  cases halt with
  | true => rfl
  | false => exact absurd rfl h

/-! ### The output channel -/

/-- The end of a step appends one value to the output or none, whatever the channel holds. -/
theorem complete_with_out {s t : State} {res : Except CoreFault Effect} (h : complete s res = .next t) :
    ∃ e, t.out = s.out ++ e ∧ e.length ≤ 1 ∧
      ∀ o, complete { s with out := o } res = .next { t with out := o ++ e } := by
  obtain ⟨f, rfl, e⟩ | ⟨⟨regWrite, flagsWrite, out, halt, pcNext⟩, rfl, e⟩ := complete_next s res
  · cases e.symm.trans h
    exact ⟨[], by simp, by simp, fun o => by rw [List.append_nil]; rfl⟩
  · cases e.symm.trans h
    cases out with
    | none => exact ⟨[], by simp, by simp, fun o => by rw [List.append_nil]; rfl⟩
    | some v => exact ⟨[v], rfl, by simp, fun o => rfl⟩

theorem controlWord_outEn_iff (i : Instr) : i.mnemonic.controlWord.outEn = true ↔ ∃ r, i = .prn r := by
  cases i <;> simp [Instr.mnemonic, Mnemonic.controlWord]

/-- A step that emits ran a PRN. -/
theorem fetch_prn_of_out_ne {s t : State} (h : step s = .next t) (hout : t.out ≠ s.out) :
    ∃ r, fetch s = .ok (.prn r) := by
  obtain ⟨-, ⟨f, -, rfl⟩ | ⟨i, hf, hexec⟩⟩ := step_cases h
  · exact absurd (raise_out f s) hout
  · cases hen : i.mnemonic.controlWord.outEn with
    | false => exact absurd (exec_out_of_outEn hexec hen) hout
    | true =>
      obtain ⟨r, rfl⟩ := (controlWord_outEn_iff i).1 hen
      exact ⟨r, hf⟩

/-! ### HALT -/

theorem exec_halt (s : State) : exec .halt s = .next { s with status := .halted } := rfl

theorem controlWord_halt_iff (i : Instr) : i.mnemonic.controlWord.halt = true ↔ i = .halt := by
  cases i <;> simp [Instr.mnemonic, Mnemonic.controlWord]

theorem fetch_halt_of_step_halted {s t : State} (h : step s = .next t) (hhalted : t.status = .halted) :
    fetch s = .ok .halt := by
  obtain ⟨hs, ⟨f, -, rfl⟩ | ⟨i, hf, hexec⟩⟩ := step_cases h
  · cases hhalted
  · cases hw : i.mnemonic.controlWord.halt with
    | false =>
      have hstatus := exec_status_of_halt hexec hw (by simp [hhalted])
      cases hhalted.symm.trans (hstatus.trans hs)
    | true => rw [hf, (controlWord_halt_iff i).1 hw]

theorem exitStatus_eq_zero_iff (s : State) : exitStatus s = some 0 ↔ s.status = .halted := by
  unfold exitStatus
  cases s.status with
  | running => simp
  | halted => simp
  | faulted => simp

/-! ### The order of the faults -/

/-- The first illegal operand of a fetched instruction, by the slots of its control word. -/
theorem find_regOperands_assemble (m : Mnemonic) (b1 b2 : Byte) :
    (m.assemble b1 b2).regOperands.find? (fun b => decide (7 < b.toNat)) =
      if 1 ∈ m.controlWord.regslots ∧ 7 < b1.toNat then some b1
      else if 2 ∈ m.controlWord.regslots ∧ 7 < b2.toNat then some b2 else none := by
  rw [m.regOperands_assemble]
  obtain rfl | ⟨-, hslots, -⟩ | ⟨hslots, -⟩ := slots_cases m
  · rfl
  · by_cases h1 : 7 < b1.toNat <;> simp [hslots, slotByte, h1]
  · by_cases h1 : 7 < b1.toNat <;> by_cases h2 : 7 < b2.toNat <;> simp [hslots, slotByte, h1, h2]

/-- What a fetched instruction does, in the order of 60_exceptions.md section 2 from the index checks on. -/
theorem exec_assemble_first_fault (m : Mnemonic) (b1 b2 : Byte) {s : State} (hs : s.status = .running) :
    if 1 ∈ m.controlWord.regslots ∧ 7 < b1.toNat then
      exec (m.assemble b1 b2) s = .next (raise (.outOfRangeRegister b1) s)
    else if 2 ∈ m.controlWord.regslots ∧ 7 < b2.toNat then
      exec (m.assemble b1 b2) s = .next (raise (.outOfRangeRegister b2) s)
    else if m = .mod ∧ s.regs[b2.toNat]? = some 0 then exec (m.assemble b1 b2) s = .next (raise .divideByZero s)
    else ∃ t, exec (m.assemble b1 b2) s = .next t ∧ t.status ≠ .faulted := by
  have hfind := find_regOperands_assemble m b1 b2
  by_cases h1 : 1 ∈ m.controlWord.regslots ∧ 7 < b1.toNat
  · rw [if_pos h1]
    exact exec_of_illegal (hfind.trans (if_pos h1)) s
  rw [if_neg h1] at hfind ⊢
  by_cases h2 : 2 ∈ m.controlWord.regslots ∧ 7 < b2.toNat
  · rw [if_pos h2]
    exact exec_of_illegal (hfind.trans (if_pos h2)) s
  rw [if_neg h2] at hfind ⊢
  obtain ⟨hm, hzero, e⟩ | ⟨hne, eff, e⟩ := exec_of_legal hfind s
  · rw [m.mnemonic_assemble] at hm
    subst hm
    rw [if_pos ⟨rfl, hzero⟩]
    exact e
  · rw [if_neg fun ⟨hm, hzero⟩ => hne ⟨(m.mnemonic_assemble b1 b2).trans hm, by subst hm; exact hzero⟩]
    exact ⟨_, e, commit_status_ne_faulted hs eff⟩

/-! ### The statements, settled -/

/-- Settles O17: the fetch reads what the decoder reads from the window. -/
theorem stepRunsDecodedInstruction : Obligations.StepRunsDecodedInstruction :=
  fun _ _ _ hs h => step_of_fetch_ok hs (fetch_of_decode h)

/-- Settles O18: a running machine's step ends in a commit or a fault of the core, each a next state. -/
theorem stepEnabledExactlyWhileRunning : Obligations.StepEnabledExactlyWhileRunning :=
  ⟨fun _ => step_next_of_running, fun _ => step_of_not_running⟩

/-- Settles O19: the fetch fails at its first check. -/
theorem fetchPastTheEndFaults : Obligations.FetchPastTheEndFaults :=
  fun _ hs hpc => step_of_fetch_error hs (fetch_of_pc_gt hpc)

/-- Settles O20: the outcomes of the fetch in their order, and then those of the instruction it assembles. -/
theorem firstFaultIsReported : Obligations.FirstFaultIsReported := by
  intro s hs op b1 b2
  obtain ⟨hpc, hf⟩ | ⟨hpc, hop, hf⟩ | ⟨m, hpc, hbyte, hgt, hf⟩ | ⟨m, hbyte, hfit, hf⟩ := fetch_cases s
  · rw [if_pos hpc]
    exact step_of_fetch_error hs hf
  · rw [if_neg (by omega), show decodeOpcode op = none from hop]
    exact step_of_fetch_error hs hf
  · have hstep := step_of_fetch_error hs hf
    have hcount := m.operandCount_le
    rw [if_neg (by omega), show op = opcodeMap m from hbyte, show decodeOpcode _ = _ from decodeOpcodeWith_opcodeMap m]
    simp only [operandCount_opcodeMap]
    by_cases h1 : 255 < s.pc + 1
    · rw [if_pos ⟨by omega, h1⟩, hstep, show s.pc + 1 = 256 by omega]
    · rw [if_neg fun h => h1 h.2, if_pos ⟨by omega, by omega⟩, hstep, show s.pc + 2 = 256 by omega]
  · rw [if_neg (by omega), show op = opcodeMap m from hbyte, show decodeOpcode _ = _ from decodeOpcodeWith_opcodeMap m]
    simp only [operandCount_opcodeMap]
    rw [if_neg (by omega), if_neg (by omega), step_of_fetch_ok hs hf]
    exact exec_assemble_first_fault m b1 b2 hs

/-- Settles O21: the record of each fault. -/
theorem faultEntryRecords : Obligations.FaultEntryRecords :=
  ⟨fun _ _ => rfl, fun _ _ => rfl, fun _ _ => rfl, fun _ => rfl⟩

/-- Settles O22: a faulting step is a `raise`. -/
theorem faultingStepCommitsNothing : Obligations.FaultingStepCommitsNothing := by
  intro s t h hfault
  obtain ⟨f, rfl⟩ := step_faulted_eq_raise h hfault
  rfl

/-- Settles O25: a fault writes the status alone, and a commit's writes are one, by the control word. -/
theorem stepWritesOneThing : Obligations.StepWritesOneThing := by
  intro s t h
  obtain ⟨res, e⟩ := step_eq_complete (step_cases h).1
  obtain ⟨emitted, hout, hlen, -⟩ := complete_with_out (e.symm.trans h)
  obtain ⟨f, rfl⟩ | ⟨i, eff, -, rfl, hallow⟩ := step_next_cases h
  · exact ⟨⟨0, fun _ _ => rfl⟩, ⟨emitted, hout, hlen⟩, fun _ => ⟨rfl, rfl⟩, fun _ => ⟨rfl, rfl⟩, fun _ => ⟨rfl, rfl⟩,
      fun _ => rfl⟩
  · obtain ⟨hregs, hflags, houtput⟩ := commit_changes_one hallow s
    exact ⟨commit_getReg_of_ne eff s, ⟨emitted, hout, hlen⟩, hregs, hflags, houtput, commit_pc_of_status_ne⟩

/-- Settles O30: a step's result does not depend on the output channel, and only PRN's adds to it. -/
theorem outputIsWriteOnly : Obligations.OutputIsWriteOnly := by
  intro s t o h
  have hs := (step_cases h).1
  obtain ⟨res, e, e'⟩ := step_same_result (s' := { s with out := o }) hs hs rfl rfl rfl rfl
  obtain ⟨emitted, hout, hlen, hcomplete⟩ := complete_with_out (e.symm.trans h)
  refine ⟨emitted, hout, hlen, fun hne => fetch_prn_of_out_ne h ?_, e'.trans (hcomplete o)⟩
  rw [hout]
  simpa using hne

/-- Settles O31: HALT's effect, and the step at its opcode byte. -/
theorem haltStopsInPlace : Obligations.HaltStopsInPlace :=
  ⟨exec_halt, fun _ hs hpc hop => step_of_opcode (m := .halt) hs hpc hop⟩

/-- Settles O32: only HALT's control word halts, and a fault's exit status is a successor. -/
theorem haltIsTheOnlySuccess : Obligations.HaltIsTheOnlySuccess := by
  refine ⟨fun s t h => ⟨fetch_halt_of_step_halted h, fun hf => ?_⟩, exitStatus_eq_zero_iff⟩
  have hexec := step_of_fetch_ok (step_cases h).1 hf
  cases hexec.symm.trans h
  rfl

end Sys2Proof.Machine
end

section
/-! SUPPORT. The instructions of files 41 to 44, settled one statement at a time: their next states with legal indices,
and the step at their opcode bytes. -/

namespace Sys2Proof.Machine

/-! ### What `alu_handlers` computes (44_alu.md section 2) -/

theorem toNat_trunc8_of_lt {v : Nat} (h : v < 256) : (trunc8 v).toNat = v := by
  simpa [trunc8] using h

theorem toNat_aluResult_not (a b : Byte) : (aluResult .not a b).toNat = 255 - a.toNat :=
  toNat_trunc8_of_lt (by omega)

theorem toNat_aluResult_shl (a b : Byte) : (aluResult .shl a b).toNat = a.toNat * 2 ^ b.toNat % 256 :=
  BitVec.toNat_ofNat _ 8

theorem toNat_aluResult_shr (a b : Byte) : (aluResult .shr a b).toNat = a.toNat / 2 ^ b.toNat :=
  toNat_trunc8_of_lt (Nat.lt_of_le_of_lt (Nat.div_le_self _ _) a.isLt)

theorem toNat_aluResult_mod (a b : Byte) : (aluResult .mod a b).toNat = a.toNat % b.toNat :=
  toNat_trunc8_of_lt (Nat.lt_of_le_of_lt (Nat.mod_le _ _) a.isLt)

theorem toNat_pos_of_ne_zero {b : Byte} (h : b ≠ 0) : 0 < b.toNat :=
  Nat.pos_of_ne_zero fun e => h (BitVec.eq_of_toNat_eq e)

/-- A count of 8 or more shifts every bit out (90_conflicts.md C1). -/
theorem aluResult_shl_eq_zero {a b : Byte} (h : 8 ≤ b.toNat) : aluResult .shl a b = 0 := by
  refine BitVec.eq_of_toNat_eq ((toNat_aluResult_shl a b).trans ?_)
  have hdvd : 256 ∣ 2 ^ b.toNat := Nat.pow_dvd_pow 2 h
  exact Nat.mod_eq_zero_of_dvd (Dvd.dvd.mul_left hdvd a.toNat)

theorem aluResult_shr_eq_zero {a b : Byte} (h : 8 ≤ b.toNat) : aluResult .shr a b = 0 := by
  refine BitVec.eq_of_toNat_eq ((toNat_aluResult_shr a b).trans ?_)
  have hpow : 256 ≤ 2 ^ b.toNat := Nat.pow_le_pow_right Nat.two_pos h
  exact Nat.div_eq_of_lt (Nat.lt_of_lt_of_le a.isLt hpow)

theorem aluDiv0_iff (op : AluOp) (b : Byte) : aluDiv0 op b = true ↔ op = .mod ∧ b = 0 := by
  simp [aluDiv0]

/-- AND, OR and XOR on bit `k` (rules R183, R184, R189). -/
theorem getLsbD_aluResult (a b : Byte) (k : Nat) :
    (aluResult .and a b).getLsbD k = (a.getLsbD k && b.getLsbD k) ∧
    (aluResult .or a b).getLsbD k = (a.getLsbD k || b.getLsbD k) ∧
    (aluResult .xor a b).getLsbD k = (a.getLsbD k ^^ b.getLsbD k) :=
  ⟨BitVec.getLsbD_and, BitVec.getLsbD_or, BitVec.getLsbD_xor⟩

/-- XOR with all ones is the complement. -/
theorem toNat_aluResult_xor_ones (a : Byte) : (aluResult .xor a 255).toNat = 255 - a.toNat := by
  have hxor : aluResult .xor a 255 = ~~~a := BitVec.xor_allOnes
  rw [hxor, BitVec.toNat_not]

/-- Settles O46: the four results as numbers, the three bit by bit, and the identities of words with 0 and all ones. -/
theorem aluResultsAsNumbers : Obligations.AluResultsAsNumbers := by
  intro a b
  refine ⟨toNat_aluResult_not a b, toNat_aluResult_shl a b, toNat_aluResult_shr a b, fun hb => ?_,
    fun k _ => getLsbD_aluResult a b k, BitVec.and_self, BitVec.and_zero, BitVec.and_allOnes, BitVec.or_self,
    BitVec.or_zero, BitVec.or_allOnes, BitVec.xor_self, BitVec.xor_zero, toNat_aluResult_xor_ones a,
    fun op => aluDiv0_iff op b⟩
  rw [toNat_aluResult_mod]
  exact ⟨rfl, Nat.mod_lt _ (toNat_pos_of_ne_zero hb)⟩

/-! ### The next states of class ALU -/

theorem aluEffect_of_ne {op : AluOp} {b : Byte} (h : ¬(op = .mod ∧ b = 0)) (i : Fin 8) (a : Byte) (p : Nat) :
    aluEffect op i a b p = .ok { regWrite := some (i, aluResult op a b), pcNext := p } :=
  if_neg fun hd => h ((aluDiv0_iff op b).1 hd)

/-- A two-operand ALU instruction that does not divide by zero writes its result to ra and advances by 3. -/
theorem aluInstr_legal {op : AluOp} {ra rb : Byte} {s : State} (ha : ra.toNat < 8) (hb : rb.toNat < 8)
    (h : ¬(op = .mod ∧ s.regs[rb.toNat] = 0)) :
    aluInstr op ra rb s = .next { s with
      regs := s.regs.set ra.toNat (aluResult op s.regs[ra.toNat] s.regs[rb.toNat]), pc := s.pc + 3 } := by
  have heffect := aluEffect_of_ne h ⟨ra.toNat, ha⟩ s.regs[ra.toNat] (seqPc s 2)
  exact (withRegs_ok ha hb s _).trans (congrArg (complete s) heffect)

theorem exec_mod_zero {ra rb : Byte} {s : State} (ha : ra.toNat < 8) (hb : rb.toNat < 8)
    (h : s.regs[rb.toNat] = 0) : exec (.mod ra rb) s = .next (raise .divideByZero s) := by
  have heffect : aluEffect .mod ⟨ra.toNat, ha⟩ s.regs[ra.toNat] s.regs[rb.toNat] (seqPc s 2) = .error .divideByZero :=
    if_pos ((aluDiv0_iff _ _).2 ⟨rfl, h⟩)
  exact (withRegs_ok ha hb s _).trans (congrArg (complete s) heffect)

theorem exec_not_legal {r : Byte} (h : r.toNat < 8) (s : State) :
    exec (.not r) s = .next { s with regs := s.regs.set r.toNat (aluResult .not s.regs[r.toNat] 0), pc := s.pc + 2 } :=
  withReg_ok h s _

/-- A shift by the operand byte itself (decision D5's other value) writes its result whatever the byte. -/
theorem shiftInstr_immediate {op : AluOp} (hop : op ≠ .mod) {ra : Byte} (ha : ra.toNat < 8) (k : Byte) (s : State) :
    shiftInstr .immediate op ra k s = .next { s with
      regs := s.regs.set ra.toNat (aluResult op s.regs[ra.toNat] k), pc := s.pc + 3 } := by
  have heffect := aluEffect_of_ne (b := k) (fun h => hop h.1) ⟨ra.toNat, ha⟩ s.regs[ra.toNat] (seqPc s 2)
  exact (withReg_ok ha s _).trans (congrArg (complete s) heffect)

/-! ### The step at an opcode byte -/

/-- With two operand bytes below address 256 the step runs the instruction the byte names. -/
theorem step_of_opcode_two {s : State} (m : Mnemonic) (hs : s.status = .running) (hpc : s.pc ≤ 253)
    (hop : Memory.get s.mem s.pc = opcodeMap m) :
    step s = exec (m.assemble (Memory.get s.mem (s.pc + 1)) (Memory.get s.mem (s.pc + 2))) s := by
  have hcount := m.operandCount_le
  exact step_of_opcode hs (by omega) hop

/-- With one, where the instruction has no second. -/
theorem step_of_opcode_one {s : State} {m : Mnemonic} (hcount : m.operandCount = 1) (hs : s.status = .running)
    (hpc : s.pc ≤ 254) (hop : Memory.get s.mem s.pc = opcodeMap m) :
    step s = exec (m.assemble (Memory.get s.mem (s.pc + 1)) (Memory.get s.mem (s.pc + 2))) s :=
  step_of_opcode hs (by omega) hop

/-- At address 255 it has none, and the step faults. -/
theorem step_of_opcode_last {s : State} {m : Mnemonic} (hcount : m.operandCount = 1) (hs : s.status = .running)
    (hpc : s.pc = 255) (hop : Memory.get s.mem s.pc = opcodeMap m) :
    step s = .next (raise (.outOfRangeAddress 256) s) :=
  step_of_missing_operand hs (by omega) (by omega) hop

/-! ### The statements, settled -/

/-- Settles O34: the two outcomes of PRN, and the step at its opcode byte with its operand below address 256 or not. -/
theorem prnEmitsRegister : Obligations.PrnEmitsRegister :=
  ⟨fun _ s h => exec_prn_legal h s, fun _ s h => withReg_error h s _,
    fun _ hs hpc hop => step_of_opcode_one (m := .prn) rfl hs hpc hop,
    fun _ hs hpc hop => step_of_opcode_last (m := .prn) rfl hs hpc hop⟩

/-- Settles O35: JMP's next state, and the step at its opcode byte. -/
theorem jmpOverwritesPc : Obligations.JmpOverwritesPc :=
  ⟨fun _ s h => exec_jmp_legal h s, fun _ hs hpc hop => step_of_opcode_one (m := .jmp) rfl hs hpc hop,
    fun _ hs hpc hop => step_of_opcode_last (m := .jmp) rfl hs hpc hop⟩

/-- Settles O36: the next states of JEQ and JNE, and the steps at their opcode bytes. -/
theorem conditionalJumpsReadEqual : Obligations.ConditionalJumpsReadEqual :=
  ⟨fun _ s h => ⟨exec_jeq_legal h s, exec_jne_legal h s⟩, fun _ hs hpc =>
    ⟨fun hop => step_of_opcode_one (m := .jeq) rfl hs hpc hop,
      fun hop => step_of_opcode_one (m := .jne) rfl hs hpc hop⟩⟩

/-- Settles O37: E is 1 and JEQ jumps, or it is 0 and JNE does. -/
theorem exactlyOneBranchIsTaken : Obligations.ExactlyOneBranchIsTaken := by
  intro r s h
  rw [exec_jeq_legal h, exec_jne_legal h]
  cases s.flags.e with
  | true => exact .inl ⟨rfl, rfl⟩
  | false => exact .inr ⟨rfl, rfl⟩

/-- Settles O38: CMP's next state, and the step at its opcode byte. -/
theorem cmpComparesUnsigned : Obligations.CmpComparesUnsigned :=
  ⟨fun _ _ s ha hb => exec_cmp_legal ha hb s, fun _ hs hpc hop => step_of_opcode_two .cmp hs hpc hop⟩

/-- Settles O39: of two bytes one is the greater or they are equal. -/
theorem compareSetsExactlyOneFlag : Obligations.CompareSetsExactlyOneFlag :=
  fun _ _ s ha hb => ⟨_, exec_cmp_legal ha hb s, compareFlags_oneHot _ _⟩

/-- Settles O40: the three results are ALU results, which `getLsbD_aluResult` gives bit by bit. -/
theorem bitwiseLogicIsBitByBit : Obligations.BitwiseLogicIsBitByBit := by
  refine ⟨fun ra rb s ha hb => ?_, fun s hs hpc => ?_⟩
  · exact ⟨_, _, _, aluInstr_legal (op := .and) ha hb nofun, aluInstr_legal (op := .or) ha hb nofun,
      aluInstr_legal (op := .xor) ha hb nofun, fun k _ => getLsbD_aluResult _ _ k⟩
  · exact ⟨step_of_opcode_two .and hs hpc, step_of_opcode_two .or hs hpc, step_of_opcode_two .xor hs hpc⟩

/-- Settles O41: NOT's next state, its value as a number, and the step at its opcode byte. -/
theorem notComplements : Obligations.NotComplements :=
  ⟨fun _ s h => ⟨_, toNat_aluResult_not _ 0, exec_not_legal h s⟩,
    fun _ hs hpc hop => step_of_opcode_one (m := .not) rfl hs hpc hop⟩

/-- Settles O42: the two results as numbers, both 0 from a count of 8 on. -/
theorem shiftsAreLogicalAndUnmasked : Obligations.ShiftsAreLogicalAndUnmasked := by
  refine ⟨fun ra rb s ha hb => ?_, fun s hs hpc => ⟨step_of_opcode_two .shl hs hpc, step_of_opcode_two .shr hs hpc⟩⟩
  exact ⟨_, _, aluInstr_legal (op := .shl) ha hb nofun, aluInstr_legal (op := .shr) ha hb nofun,
    toNat_aluResult_shl _ _, toNat_aluResult_shr _ _, fun h => ⟨aluResult_shl_eq_zero h, aluResult_shr_eq_zero h⟩⟩

/-- Settles O43: the same results with the byte as the count. -/
theorem immediateShiftAmountVariant : Obligations.ImmediateShiftAmountVariant :=
  fun _ k s ha => ⟨_, _, shiftInstr_immediate (op := .shl) nofun ha k s, shiftInstr_immediate (op := .shr) nofun ha k s,
    toNat_aluResult_shl _ k, toNat_aluResult_shr _ k⟩

/-- Settles O44: the remainder for a divisor that is not 0, the fault for 0, and the step at MOD's opcode byte. -/
theorem modRemainderOrDivideByZero : Obligations.ModRemainderOrDivideByZero :=
  ⟨fun _ _ _ ha hb hne => ⟨_, toNat_aluResult_mod _ _, aluInstr_legal (op := .mod) ha hb fun h => hne h.2⟩,
    fun _ _ _ ha hb hzero => exec_mod_zero ha hb hzero, fun _ hs hpc hop => step_of_opcode_two .mod hs hpc hop⟩

end Sys2Proof.Machine
end

section
/-! SUPPORT. The loop under fuel (40_fetch_decode_execute.md rules R100, R111): how it ends, and that it keeps what
every step keeps. -/

namespace Sys2Proof.Machine

/-! ### The loop, a step at a time -/

theorem run_of_not_running {s : State} (hs : s.status ≠ .running) (fuel : Nat) : run fuel s = .ended s := by
  unfold run
  cases h : s.status with
  | running => exact absurd h hs
  | halted => rfl
  | faulted => rfl

theorem run_zero {s : State} (hs : s.status = .running) : run 0 s = .notEnded s := by
  simp only [run, hs]

theorem run_succ {s t : State} (h : step s = .next t) (fuel : Nat) : run (fuel + 1) s = run fuel t := by
  simp only [run, (step_cases h).1, h]

/-- Every run comes to a state, ended where it no longer runs and not ended where it does; and that state has whatever
the first one has and every step keeps. -/
theorem run_cases {P : State → Prop} (hstep : ∀ s t, P s → step s = .next t → P t) (fuel : Nat) {s : State}
    (hs : P s) : ∃ t, P t ∧ ((run fuel s = .ended t ∧ t.status ≠ .running) ∨
      (run fuel s = .notEnded t ∧ t.status = .running)) := by
  induction fuel generalizing s with
  | zero =>
    by_cases hrun : s.status = .running
    · exact ⟨s, hs, .inr ⟨run_zero hrun, hrun⟩⟩
    · exact ⟨s, hs, .inl ⟨run_of_not_running hrun 0, hrun⟩⟩
  | succ fuel ih =>
    by_cases hrun : s.status = .running
    · obtain ⟨t, ht⟩ := step_next_of_running hrun
      rw [run_succ ht]
      exact ih (hstep s t hs ht)
    · exact ⟨s, hs, .inl ⟨run_of_not_running hrun _, hrun⟩⟩

theorem run_keeps {P : State → Prop} (hstep : ∀ s t, P s → step s = .next t → P t) {fuel : Nat} {s t : State}
    (hs : P s) (h : run fuel s = .ended t ∨ run fuel s = .notEnded t) : P t := by
  obtain ⟨u, hu, ⟨e, -⟩ | ⟨e, -⟩⟩ := run_cases hstep fuel hs
  · obtain h | h := h
    · cases e.symm.trans h
      exact hu
    · cases e.symm.trans h
  · obtain h | h := h
    · cases e.symm.trans h
    · cases e.symm.trans h
      exact hu

theorem run_total (fuel : Nat) (s : State) : ∃ t, (run fuel s = .ended t ∧ t.status ≠ .running) ∨
    (run fuel s = .notEnded t ∧ t.status = .running) := by
  obtain ⟨t, -, h⟩ := run_cases (P := fun _ => True) (fun _ _ _ _ => trivial) fuel (s := s) trivial
  exact ⟨t, h⟩

theorem status_of_ended {fuel : Nat} {s t : State} (h : run fuel s = .ended t) : t.status ≠ .running := by
  obtain ⟨u, ⟨e, hu⟩ | ⟨e, -⟩⟩ := run_total fuel s
  · cases e.symm.trans h
    exact hu
  · cases e.symm.trans h

theorem status_of_notEnded {fuel : Nat} {s t : State} (h : run fuel s = .notEnded t) : t.status = .running := by
  obtain ⟨u, ⟨e, -⟩ | ⟨e, hu⟩⟩ := run_total fuel s
  · cases e.symm.trans h
  · cases e.symm.trans h
    exact hu

theorem run_add_of_ended {fuel : Nat} {s t : State} (h : run fuel s = .ended t) (more : Nat) :
    run (fuel + more) s = .ended t := by
  induction fuel generalizing s with
  | zero =>
    by_cases hrun : s.status = .running
    · cases (run_zero hrun).symm.trans h
    · rw [run_of_not_running hrun] at h ⊢
      exact h
  | succ fuel ih =>
    by_cases hrun : s.status = .running
    · obtain ⟨u, hu⟩ := step_next_of_running hrun
      rw [run_succ hu] at h
      rw [Nat.add_right_comm, run_succ hu]
      exact ih h
    · rw [run_of_not_running hrun] at h ⊢
      exact h

/-- Both ends are the end under both fuels together. -/
theorem ended_unique {fuel fuel' : Nat} {s t t' : State} (h : run fuel s = .ended t) (h' : run fuel' s = .ended t') :
    t' = t := by
  have e := run_add_of_ended h fuel'
  have e' := run_add_of_ended h' fuel
  rw [Nat.add_comm] at e'
  cases e.symm.trans e'
  rfl

/-- A state that steps to itself is never left. -/
theorem run_of_step_self {s : State} (h : step s = .next s) (fuel : Nat) : run fuel s = .notEnded s := by
  induction fuel with
  | zero => exact run_zero (step_cases h).1
  | succ fuel ih => rw [run_succ h, ih]

/-! ### From reset and a load -/

/-- A load that succeeds writes memory alone and keeps its canonical form. -/
theorem load_next {image : List Nat} {s t : State} (hm : Memory.wf s.mem = true) (h : load image s = .next t) :
    ∃ m, Memory.wf m = true ∧ t = { s with mem := m } := by
  unfold load at h
  split at h
  · split at h
    next m hwrite =>
      cases h
      exact ⟨m, writeImage_wf image s.mem m 0 hm hwrite, rfl⟩
    next => cases h
  · cases h

theorem boot_inv {image : List Nat} {s : State} (h : boot image = .next s) : StateInv s := by
  obtain ⟨m, hm, rfl⟩ := load_next reset_mem_wf h
  exact freshState_inv hm (by decide)

theorem exitStatus_of_running {s : State} (h : s.status = .running) : exitStatus s = none := by
  simp only [exitStatus, h]

theorem exitStatus_of_faulted {s : State} (h : s.status = .faulted) :
    exitStatus s = some (Config.exitCodeBelow s.cause.code + 1) := by
  simp only [exitStatus, h]

/-! ### The statements, settled -/

/-- Settles O2: each field as `State.reset` has it, and an empty memory reads 0 everywhere. -/
theorem resetLeavesEveryField : Obligations.ResetLeavesEveryField :=
  ⟨reset_pc, reset_flags, fun a => Memory.get_nil a, reset_out, reset_status, reset_cause, reset_faultPc,
    reset_faultKind, reset_faultValue⟩

/-- Settles O3: reset is the fresh machine with an empty memory. -/
theorem resetMeetsInvariant : Obligations.ResetMeetsInvariant :=
  freshState_inv (m := []) reset_mem_wf (by decide)

/-- Settles O6: the invariant holds once loaded, and every step keeps it. -/
theorem everyRunKeepsInvariant : Obligations.EveryRunKeepsInvariant :=
  fun _ _ hboot _ _ h => run_keeps stepKeepsInvariant (boot_inv hboot) h

/-- Settles O53: what a run comes to, and that its end does not depend on the fuel. -/
theorem runResultsAreSound : Obligations.RunResultsAreSound := by
  refine ⟨fun fuel s h => ?_, fun fuel s t h => ?_, fun fuel s t h => status_of_notEnded h,
    fun fuel more s t h => run_add_of_ended h more, fun fuel s t h fuel' t' h' => ended_unique h h'⟩
  · obtain ⟨t, ⟨e, -⟩ | ⟨e, -⟩⟩ := run_total fuel s
    · cases e.symm.trans h
    · cases e.symm.trans h
  · cases hstatus : t.status with
    | running => exact absurd hstatus (status_of_ended h)
    | halted => exact .inl rfl
    | faulted => exact .inr rfl

/-- Settles O55: the codes of the table, and a fault's exit status is a successor. -/
theorem hostCodes : Obligations.HostCodes :=
  ⟨rfl, rfl, rfl, rfl, rfl, rfl, rfl, fun _ => exitStatus_of_running,
    fun _ h => ⟨_, exitStatus_of_faulted h, Nat.succ_ne_zero _⟩⟩

end Sys2Proof.Machine
end

section
/-! SUPPORT. The statements about two steps and about bytes placed at the pc, settled: each step is run by its opcode
byte. -/

namespace Sys2Proof.Machine

/-! ### A word placed at the pc -/

theorem fetchWindow_of_le {s : State} (hpc : s.pc ≤ 253) :
    fetchWindow s = [Memory.get s.mem s.pc, Memory.get s.mem (s.pc + 1), Memory.get s.mem (s.pc + 2)] := by
  rw [fetchWindow_eq (by omega), List.take_of_length_le (show 2 ≤ 255 - s.pc by omega)]

theorem get_placeBytes_add {m : Memory} {a k : Nat} {vs : List Byte} (hm : Memory.wf m = true)
    (hfit : a + vs.length ≤ 256) (hk : k < vs.length) : Memory.get (placeBytes m a vs) (a + k) = vs[k] := by
  rw [get_placeBytes hm hfit, if_pos (Nat.le_add_right a k), Nat.add_sub_cancel_left, List.getElem?_eq_getElem hk]
  rfl

/-- The bytes of the placed word are the fetch window. -/
theorem fetchWindow_withFetchWord {s : State} (hm : Memory.wf s.mem = true) (hpc : s.pc ≤ 253) (nbits w : Nat) :
    fetchWindow (s.withFetchWord nbits w) = tableBytes nbits w := by
  have hget (k : Nat) (hk : k < (tableBytes nbits w).length) :
      Memory.get (s.withFetchWord nbits w).mem (s.pc + k) = (tableBytes nbits w)[k] :=
    get_placeBytes_add hm (show s.pc + 3 ≤ 256 by omega) hk
  rw [fetchWindow_of_le (s := s.withFetchWord nbits w) hpc]
  have h0 := hget 0 (show 0 < 3 by decide)
  have h1 := hget 1 (show 1 < 3 by decide)
  have h2 := hget 2 (show 2 < 3 by decide)
  exact congrArg₂ _ h0 (congrArg₂ _ h1 (congrArg₂ _ h2 rfl))

theorem decode_of_decodeTableWord {nbits w : Nat} {i : Instr} (h : decodeTableWord nbits w = some i) :
    ∃ rest, decode (tableBytes nbits w) = .ok (i, rest) := by
  unfold decodeTableWord at h
  split at h
  next j rest hdecode =>
    cases h
    exact ⟨rest, hdecode⟩
  next => cases h

/-- Settles O56: the placed word's bytes are the fetch window, which decodes to `i`. -/
theorem placedWordRunsNext : Obligations.PlacedWordRunsNext := by
  intro s nbits w i hm hpc h
  obtain ⟨rest, hdecode⟩ := decode_of_decodeTableWord h
  rw [← fetchWindow_withFetchWord hm hpc] at hdecode
  exact stepRunsDecodedInstruction _ i rest rfl hdecode

/-! ### The step at an instruction whose bytes are known -/

section
variable {s : State} (hs : s.status = .running)
include hs

theorem step_ldi {r imm : Byte} (hpc : s.pc ≤ 253) (hop : Memory.get s.mem s.pc = 0x82)
    (h1 : Memory.get s.mem (s.pc + 1) = r) (h2 : Memory.get s.mem (s.pc + 2) = imm) (hr : r.toNat < 8) :
    step s = .next { s with regs := s.regs.set r.toNat imm, pc := s.pc + 3 } := by
  rw [step_of_opcode_two .ldi hs hpc hop, h1, h2]
  exact exec_ldi_legal hr imm s

theorem step_cmp {ra rb : Byte} (hpc : s.pc ≤ 253) (hop : Memory.get s.mem s.pc = 0xA7)
    (h1 : Memory.get s.mem (s.pc + 1) = ra) (h2 : Memory.get s.mem (s.pc + 2) = rb) (ha : ra.toNat < 8)
    (hb : rb.toNat < 8) :
    step s = .next { s with flags := compareFlags s.regs[ra.toNat] s.regs[rb.toNat], pc := s.pc + 3 } := by
  rw [step_of_opcode_two .cmp hs hpc hop, h1, h2]
  exact exec_cmp_legal ha hb s

variable {r : Byte} (hpc : s.pc ≤ 254) (h1 : Memory.get s.mem (s.pc + 1) = r) (hr : r.toNat < 8)
include hpc h1

theorem step_prn (hop : Memory.get s.mem s.pc = 0x47) :
    step s = .next { s with out := s.out ++ [s.regs[r.toNat]], pc := s.pc + 2 } := by
  rw [step_of_opcode_one (m := .prn) rfl hs hpc hop, h1]
  exact exec_prn_legal hr s

theorem step_jmp (hop : Memory.get s.mem s.pc = 0x54) :
    step s = .next { s with pc := s.regs[r.toNat].toNat } := by
  rw [step_of_opcode_one (m := .jmp) rfl hs hpc hop, h1]
  exact exec_jmp_legal hr s

/-- JEQ and JNE, by the opcode byte. -/
theorem step_branch :
    (Memory.get s.mem s.pc = 0x55 →
      step s = .next { s with pc := if s.flags.e then s.regs[r.toNat].toNat else s.pc + 2 }) ∧
    (Memory.get s.mem s.pc = 0x56 →
      step s = .next { s with pc := if s.flags.e then s.pc + 2 else s.regs[r.toNat].toNat }) := by
  constructor
  · intro hop
    rw [step_of_opcode_one (m := .jeq) rfl hs hpc hop, h1]
    exact exec_jeq_legal hr s
  · intro hop
    rw [step_of_opcode_one (m := .jne) rfl hs hpc hop, h1]
    exact exec_jne_legal hr s

end

/-! ### Two steps, many steps -/

/-- Settles O50: the register PRN reads is the one LDI wrote. -/
theorem loadThenPrintEmits : Obligations.LoadThenPrintEmits := by
  intro s r v hs hpc hr hldi hr1 hv hprn hr4
  have hload := step_ldi hs (by omega) hldi hr1 hv hr
  have hpc' : s.pc + 3 ≤ 254 := by omega
  have hprint := step_prn (s := { s with regs := s.regs.set r.toNat v, pc := s.pc + 3 }) hs hpc' hr4 hr hprn
  exact ⟨_, _, hload, hprint, rfl, by simp, rfl⟩

/-- Settles O51: the E that the branch reads is the comparison CMP wrote. -/
theorem branchSeesThePrecedingCompare : Obligations.BranchSeesThePrecedingCompare := by
  intro s ra rb r ha hb hr hs hpc hcmp h1 h2 h4
  have hcompare := step_cmp hs (by omega) hcmp h1 h2 ha hb
  have hpc' : s.pc + 3 ≤ 254 := by omega
  obtain ⟨hjeq, hjne⟩ := step_branch
    (s := { s with flags := compareFlags s.regs[ra.toNat] s.regs[rb.toNat], pc := s.pc + 3 }) hs hpc' h4 hr
  refine ⟨_, hcompare, fun hop => ⟨_, hjeq hop, ?_⟩, fun hop => ⟨_, hjne hop, ?_⟩⟩
  · simp [compareFlags]
  · simp [compareFlags]

/-- Settles O52: the jump leaves the state as it was. -/
theorem jumpToItselfNeverEnds : Obligations.JumpToItselfNeverEnds := by
  intro s r hr hs hpc hop h1 htarget fuel
  have hself : step s = .next s := by
    rw [step_jmp hs hpc h1 hr hop, htarget]
  exact run_of_step_self hself fuel

end Sys2Proof.Machine
end
